-- ==== Sys2Proof/Word.lean ====
section
/-!
DEFINITION. The word types of the CHIP-8 CORE (00_scope.md R5, R8). All values are unsigned; arithmetic on them is BitVec's.
The byte order, the fields of a word and zero extension are in Sys2Proof/Decode.lean.
-/
namespace Sys2Proof

/-- A byte: a register, a timer, a memory cell (R8). -/
abbrev Byte := BitVec 8

/-- A 16-bit value: I, PC, SP, a stack entry, an instruction word (R5). -/
abbrev Word16 := BitVec 16

/-- A nibble d1, d2, d3 or d4 of the instruction word (30_encoding.md R71); as x or y it selects a register (R20). -/
abbrev Nibble := BitVec 4

/-- The 12-bit address field nnn (R71). -/
abbrev Addr12 := BitVec 12

end Sys2Proof
end

