-- ==== Sys2Proof/Machine/Flags.lean ====
section
/-!
DEFINITION. The values that the six flag-producing instructions write to VF (10_state.md R21, 42_alu.md R132).
-/
namespace Sys2Proof.Machine

/-- A flag as the byte written to VF: 1 or 0. -/
def flagByte (c : Bool) : Byte := if c then 1 else 0

/-- 8xy4: the unbounded sum exceeds 255 (R126). -/
def carryFlag (a b : Byte) : Byte := flagByte (decide (a.toNat + b.toNat > 255))

/-- 8xy5 and 8xy7, minuend `a` and subtrahend `b`: NOT borrow (R127, R129). -/
def notBorrowFlag (a b : Byte) : Byte := flagByte (!decide (a.toNat < b.toNat))

/-- 8xy6: bit 0 before the shift (R128). -/
def lowBitFlag (a : Byte) : Byte := flagByte (a.getLsbD 0)

/-- 8xyE: bit 7 before the shift (R130). -/
def highBitFlag (a : Byte) : Byte := flagByte (a.getLsbD 7)

/-- Dxyn: at least one pixel went from set to unset (R151). -/
def collisionFlag (c : Bool) : Byte := flagByte c

end Sys2Proof.Machine
end

