-- ==== Sys2Proof/Machine/Params.lean ====
section
/-!
DEFINITION. The open parameters of 00_scope.md R5 at the values the spec's rules give them (92_eei_decisions.md D8 to
D12). They stand under Machine/ so that a test of the hardware can mend one without touching anything else.
-/
namespace Sys2Proof.Machine

/-- FONT, the 80 bytes of glyphs 0 to F, 5 each: the default table of 10_state.md R33. PRESUMED (the spec marks the bytes
as general knowledge, G1, D9); unsafe: a claim about a glyph's picture rests on it (notes/assumptions/2.md). -/
def fontTable : List Byte :=
  [0xF0, 0x90, 0x90, 0x90, 0xF0,  0x20, 0x60, 0x20, 0x20, 0x70,
   0xF0, 0x10, 0xF0, 0x80, 0xF0,  0xF0, 0x10, 0xF0, 0x10, 0xF0] ++
  [0x90, 0x90, 0xF0, 0x10, 0x10,  0xF0, 0x80, 0xF0, 0x10, 0xF0,
   0xF0, 0x80, 0xF0, 0x90, 0xF0,  0xF0, 0x10, 0x20, 0x40, 0x40] ++
  [0xF0, 0x90, 0xF0, 0x90, 0xF0,  0xF0, 0x90, 0xF0, 0x10, 0xF0,
   0xF0, 0x90, 0xF0, 0x90, 0x90,  0xE0, 0x90, 0xE0, 0x90, 0xE0] ++
  [0xF0, 0x80, 0x80, 0x80, 0xF0,  0xE0, 0x90, 0x90, 0x90, 0xE0,
   0xF0, 0x80, 0xF0, 0x80, 0xF0,  0xF0, 0x80, 0xF0, 0x80, 0x80]

/-- RESET_PC (R36, R202, D8). DESIGN CHOICE of the spec; unsafe (notes/assumptions/3.md). -/
def resetPc : Word16 := 0x0000

/-- STRICT_D4 (R76, D12): false, so d4 of 5xy- and 9xy- is ignored. DESIGN CHOICE of the spec; unsafe
(notes/assumptions/7.md). -/
def strictD4 : Bool := false

/-- KEYSEL (R162, D11): the smallest index whose key is down; none when every key is up. DESIGN CHOICE of the spec; unsafe
(notes/assumptions/8.md). -/
def keySel (keys : Vector Bool 16) : Option (Fin 16) :=
  (List.finRange 16).find? fun k => keys.get k

/-- The pixel `lx` (0 is the leftmost) of a sprite row: bit `7 - lx` of its byte (R151, D10). DESIGN CHOICE of the spec
(general knowledge G2); unsafe (notes/assumptions/9.md). -/
def spriteBit (row : Byte) (lx : Nat) : Bool := row.getLsbD (7 - lx)

end Sys2Proof.Machine
end

