-- ==== Sys2Proof/Syntax.lean ====
section
/-!
DEFINITION. The instructions: one constructor per row of spec/opcode_table.json, in the table's order
(30_encoding.md R74). A field that the hardware ignores (y of the shifts, d4 of 5xy- and 9xy-, R76) is kept, so that an
instruction is the whole word it was read from (notes/assumptions/24.md).
-/
namespace Sys2Proof

/-- The 35 instructions of R74. -/
inductive Instr where
  /-- 0000 NOP -/
  | nop
  /-- 00E0 CLS -/
  | cls
  /-- 00EE RET -/
  | ret
  /-- 1nnn JP nnn -/
  | jp (nnn : Addr12)
  /-- 2nnn CALL nnn -/
  | call (nnn : Addr12)
  /-- 3xnn SE Vx, nn -/
  | seImm (x : Nibble) (nn : Byte)
  /-- 4xnn SNE Vx, nn -/
  | sneImm (x : Nibble) (nn : Byte)
  /-- 5xy- SE Vx, Vy (d4 ignored, canonical 0) -/
  | seReg (x y d4 : Nibble)
  /-- 6xnn LD Vx, nn -/
  | ldImm (x : Nibble) (nn : Byte)
  /-- 7xnn ADD Vx, nn -/
  | addImm (x : Nibble) (nn : Byte)
  /-- 8xy0 LD Vx, Vy -/
  | ldReg (x y : Nibble)
  /-- 8xy1 OR Vx, Vy -/
  | orReg (x y : Nibble)
  /-- 8xy2 AND Vx, Vy -/
  | andReg (x y : Nibble)
  /-- 8xy3 XOR Vx, Vy -/
  | xorReg (x y : Nibble)
  /-- 8xy4 ADD Vx, Vy -/
  | addReg (x y : Nibble)
  /-- 8xy5 SUB Vx, Vy -/
  | subReg (x y : Nibble)
  /-- 8xy6 SHR Vx (y ignored) -/
  | shr (x y : Nibble)
  /-- 8xy7 SUBN Vx, Vy -/
  | subnReg (x y : Nibble)
  /-- 8xyE SHL Vx (y ignored) -/
  | shl (x y : Nibble)
  /-- 9xy- SNE Vx, Vy (d4 ignored, canonical 0) -/
  | sneReg (x y d4 : Nibble)
  /-- Annn LD I, nnn -/
  | ldI (nnn : Addr12)
  /-- Bnnn JP V0, nnn -/
  | jpV0 (nnn : Addr12)
  /-- Cxnn RND Vx, nn -/
  | rnd (x : Nibble) (nn : Byte)
  /-- Dxyn DRW Vx, Vy, n -/
  | drw (x y n : Nibble)
  /-- Ex9E SKP Vx -/
  | skp (x : Nibble)
  /-- ExA1 SKNP Vx -/
  | sknp (x : Nibble)
  /-- Fx07 LD Vx, DT -/
  | ldVxDt (x : Nibble)
  /-- Fx0A LD Vx, K -/
  | ldVxK (x : Nibble)
  /-- Fx15 LD DT, Vx -/
  | ldDtVx (x : Nibble)
  /-- Fx18 LD ST, Vx -/
  | ldStVx (x : Nibble)
  /-- Fx1E ADD I, Vx -/
  | addI (x : Nibble)
  /-- Fx29 LD F, Vx -/
  | ldF (x : Nibble)
  /-- Fx33 LD B, Vx -/
  | ldB (x : Nibble)
  /-- Fx55 LD [I], Vx -/
  | ldMemVx (x : Nibble)
  /-- Fx65 LD Vx, [I] -/
  | ldVxMem (x : Nibble)
  deriving DecidableEq, Repr

end Sys2Proof
end

