-- ==== Sys2Proof/WellFormed.lean ====
section
/-!
DEFINITION. Well-formedness of an instruction. The types of the fields bound x, y, n, nn and nnn already (30_encoding.md
R71, R72: every value of them is legal); what is left is the parameter STRICT_D4 of R76: with it, 5xy- and 9xy- are
instructions only when d4 = 0.
-/
namespace Sys2Proof

/-- `i` is an instruction of the machine with the given STRICT_D4 (R76). -/
def Instr.wellFormed (strict : Bool) (i : Instr) : Bool :=
  match i with
  | .seReg _ _ d4 => !strict || d4 == 0
  | .sneReg _ _ d4 => !strict || d4 == 0
  | _ => true

end Sys2Proof
end

