-- ==== Sys2Proof/Decode.lean ====
section
/-!
DEFINITION. The decoder and the encoder (30_encoding.md R70 to R76). The decoder is total: every one of the 65536 words
is one instruction or is rejected by name, and it depends on the word alone (R73).
-/
namespace Sys2Proof

/-- `hi ++ lo` of R52: the byte at the lower address holds bits 15:8. -/
def wordOfBytes (hi lo : Byte) : Word16 := hi ++ lo

/-- The instruction word with the four nibbles d1 to d4, most significant first (R71). -/
def wordOfNibbles (d1 d2 d3 d4 : Nibble) : Word16 := (d1 ++ d2) ++ (d3 ++ d4)

/-- `zext_16` of a byte (R8). -/
def zextByte (b : Byte) : Word16 := b.setWidth 16

/-- `zext_16` of nnn (R72). -/
def zextAddr (a : Addr12) : Word16 := a.setWidth 16

/-- Why bytes are no instruction. -/
inductive DecodeError where
  /-- The word matches no row of R74: executing it raises UnimplementedInstruction (R75, R95). -/
  | unimplemented (w : Word16)
  /-- Fewer than the two bytes every instruction has (R70); the fetch never gives so few. -/
  | truncated
  deriving DecidableEq, Repr

/-- d1 of R71: bits 15:12. -/
def nib1 (w : Word16) : Nibble := w.extractLsb' 12 4

/-- d2 = x of R71: bits 11:8. -/
def nib2 (w : Word16) : Nibble := w.extractLsb' 8 4

/-- d3 = y of R71: bits 7:4. -/
def nib3 (w : Word16) : Nibble := w.extractLsb' 4 4

/-- d4 = n of R71: bits 3:0. -/
def nib4 (w : Word16) : Nibble := w.extractLsb' 0 4

/-- nn of R71: bits 7:0. -/
def fieldNn (w : Word16) : Byte := w.extractLsb' 0 8

/-- nnn of R71: bits 11:0. -/
def fieldNnn (w : Word16) : Addr12 := w.extractLsb' 0 12

/-- Family 0: three fixed words (R74 rows 1 to 3). -/
def decodeFamily0 (w : Word16) : Option Instr :=
  if w = 0x0000 then some .nop
  else if w = 0x00E0 then some .cls
  else if w = 0x00EE then some .ret
  else none

/-- Family 8: selected by d4 (R74 rows 11 to 19). -/
def decodeFamily8 (x y d4 : Nibble) : Option Instr :=
  match d4 with
  | 0x0#4 => some (.ldReg x y)
  | 0x1#4 => some (.orReg x y)
  | 0x2#4 => some (.andReg x y)
  | 0x3#4 => some (.xorReg x y)
  | 0x4#4 => some (.addReg x y)
  | 0x5#4 => some (.subReg x y)
  | 0x6#4 => some (.shr x y)
  | 0x7#4 => some (.subnReg x y)
  | 0xE#4 => some (.shl x y)
  | _ => none

/-- Family E: selected by nn (R74 rows 25 and 26). -/
def decodeFamilyE (x : Nibble) (nn : Byte) : Option Instr :=
  if nn = 0x9E then some (.skp x)
  else if nn = 0xA1 then some (.sknp x)
  else none

/-- Family F: selected by nn (R74 rows 27 to 35). -/
def decodeFamilyF (x : Nibble) (nn : Byte) : Option Instr :=
  if nn = 0x07 then some (.ldVxDt x)
  else if nn = 0x0A then some (.ldVxK x)
  else if nn = 0x15 then some (.ldDtVx x)
  else if nn = 0x18 then some (.ldStVx x)
  else if nn = 0x1E then some (.addI x)
  else if nn = 0x29 then some (.ldF x)
  else if nn = 0x33 then some (.ldB x)
  else if nn = 0x55 then some (.ldMemVx x)
  else if nn = 0x65 then some (.ldVxMem x)
  else none

/-- 5xy- and 9xy-: d4 ignored, unless STRICT_D4 asks for 0 (R76). -/
def decodeSkipReg (strict : Bool) (i : Instr) : Option Instr :=
  if i.wellFormed strict then some i else none

/-- The row of R74 that `w` matches, by the family d1. -/
def decodeRow (strict : Bool) (w : Word16) : Option Instr :=
  match nib1 w with
  | 0x0#4 => decodeFamily0 w
  | 0x1#4 => some (.jp (fieldNnn w))
  | 0x2#4 => some (.call (fieldNnn w))
  | 0x3#4 => some (.seImm (nib2 w) (fieldNn w))
  | 0x4#4 => some (.sneImm (nib2 w) (fieldNn w))
  | 0x5#4 => decodeSkipReg strict (.seReg (nib2 w) (nib3 w) (nib4 w))
  | 0x6#4 => some (.ldImm (nib2 w) (fieldNn w))
  | 0x7#4 => some (.addImm (nib2 w) (fieldNn w))
  | 0x8#4 => decodeFamily8 (nib2 w) (nib3 w) (nib4 w)
  | 0x9#4 => decodeSkipReg strict (.sneReg (nib2 w) (nib3 w) (nib4 w))
  | 0xA#4 => some (.ldI (fieldNnn w))
  | 0xB#4 => some (.jpV0 (fieldNnn w))
  | 0xC#4 => some (.rnd (nib2 w) (fieldNn w))
  | 0xD#4 => some (.drw (nib2 w) (nib3 w) (nib4 w))
  | 0xE#4 => decodeFamilyE (nib2 w) (fieldNn w)
  | 0xF#4 => decodeFamilyF (nib2 w) (fieldNn w)
  | _ => none

/-- Decoding with an explicit STRICT_D4 (R73, R76): the instruction, or the rejection by name. -/
def decodeWith (strict : Bool) (w : Word16) : Except DecodeError Instr :=
  match decodeRow strict w with
  | some i => .ok i
  | none => .error (.unimplemented w)

/-- The machine's decoder: STRICT_D4 at its default (D12). -/
def decodeWord (w : Word16) : Except DecodeError Instr := decodeWith Machine.strictD4 w

/-- Decoding from bytes in memory order, high byte first (R52, R70): the instruction and the bytes after it. -/
def decodeBytes (bs : List Byte) : Except DecodeError (Instr × List Byte) :=
  match bs with
  | hi :: lo :: rest =>
    match decodeWord (wordOfBytes hi lo) with
    | .ok i => .ok (i, rest)
    | .error e => .error e
  | _ => .error .truncated

/-- The word `w` of `nbits` bits as the bytes the hardware stores, the high byte at the lower address (R52). -/
def tableWordBytes (nbits w : Nat) : List Byte :=
  let v := w % 2 ^ nbits
  [BitVec.ofNat 8 (v / 256), BitVec.ofNat 8 v]

/-- The host's question: the instruction that the decoder reads from a table word, none where it refuses. -/
def decodeTableWord (nbits w : Nat) : Option Instr :=
  match decodeBytes (tableWordBytes nbits w) with
  | .ok (i, _) => some i
  | .error _ => none

/-- `d1 nnn`: families 1, 2, A, B (R71). -/
def encodeNnn (d1 : Nibble) (nnn : Addr12) : Word16 := d1 ++ nnn

/-- `d1 x nn`: families 3, 4, 6, 7, C, and E and F with nn the sub-opcode (R71). -/
def encodeXnn (d1 x : Nibble) (nn : Byte) : Word16 := (d1 ++ x) ++ nn

/-- The word of an instruction, from the match column of R74 and the fields of R71. -/
def encode (i : Instr) : Word16 :=
  match i with
  | .nop => 0x0000
  | .cls => 0x00E0
  | .ret => 0x00EE
  | .jp nnn => encodeNnn 0x1 nnn
  | .call nnn => encodeNnn 0x2 nnn
  | .seImm x nn => encodeXnn 0x3 x nn
  | .sneImm x nn => encodeXnn 0x4 x nn
  | .seReg x y d4 => wordOfNibbles 0x5 x y d4
  | .ldImm x nn => encodeXnn 0x6 x nn
  | .addImm x nn => encodeXnn 0x7 x nn
  | .ldReg x y => wordOfNibbles 0x8 x y 0x0
  | .orReg x y => wordOfNibbles 0x8 x y 0x1
  | .andReg x y => wordOfNibbles 0x8 x y 0x2
  | .xorReg x y => wordOfNibbles 0x8 x y 0x3
  | .addReg x y => wordOfNibbles 0x8 x y 0x4
  | .subReg x y => wordOfNibbles 0x8 x y 0x5
  | .shr x y => wordOfNibbles 0x8 x y 0x6
  | .subnReg x y => wordOfNibbles 0x8 x y 0x7
  | .shl x y => wordOfNibbles 0x8 x y 0xE
  | .sneReg x y d4 => wordOfNibbles 0x9 x y d4
  | .ldI nnn => encodeNnn 0xA nnn
  | .jpV0 nnn => encodeNnn 0xB nnn
  | .rnd x nn => encodeXnn 0xC x nn
  | .drw x y n => wordOfNibbles 0xD x y n
  | .skp x => encodeXnn 0xE x 0x9E
  | .sknp x => encodeXnn 0xE x 0xA1
  | .ldVxDt x => encodeXnn 0xF x 0x07
  | .ldVxK x => encodeXnn 0xF x 0x0A
  | .ldDtVx x => encodeXnn 0xF x 0x15
  | .ldStVx x => encodeXnn 0xF x 0x18
  | .addI x => encodeXnn 0xF x 0x1E
  | .ldF x => encodeXnn 0xF x 0x29
  | .ldB x => encodeXnn 0xF x 0x33
  | .ldMemVx x => encodeXnn 0xF x 0x55
  | .ldVxMem x => encodeXnn 0xF x 0x65

end Sys2Proof
end

