-- ==== Sys2Proof/Config.lean ====
section
/-!
DEFINITION. What is fixed for the machine: the sizes of 00_scope.md R5, and the FREE VALUES, which are opaque
constants: nothing in Lean can evaluate one, so a statement holds whatever they are (notes/assumptions/4.md, 5.md).
The open parameters that the spec gives a default (FONT, KEYSEL, STRICT_D4, BITORDER, RESET_PC) are in
Sys2Proof/Machine/Params.lean.
-/
namespace Sys2Proof

/-- MEM_SIZE: valid addresses are 0 to 4095 (R5, R50). -/
def Config.memSize : Nat := 4096

/-- LOAD_OFFSET: where a program is loaded and where PC points after a load (R5). -/
def Config.loadOffset : Nat := 512

/-- GLYPH_H: bytes per font glyph (R5). -/
def Config.glyphHeight : Nat := 5

/-- STACK_DEPTH: entries of the return stack (R5, R28). -/
def Config.stackDepth : Nat := 16

/-- The byte that the host's random source gives the `n`-th free draw (R131, R187, decision D16): FREE, under no law. -/
opaque Config.drawnByte : Nat → Byte

/-- After a fault raised by an executing instruction (the `n`-th free draw): whether PC is a + 2 or still a (R178): FREE. -/
opaque Config.faultPcAdvanced : Nat → Bool

/-- After a fault part way through a transfer (the `n`-th free draw): whether the effect on the `k`-th byte or register,
in range and before the faulting one, has happened (R178): FREE for each `k`. -/
opaque Config.faultEffectDone : Nat → Nat → Bool

end Sys2Proof
end

