-- ==== Sys2Proof/Machine/State.lean ====
section
/-!
DEFINITION. The state of the machine as plain data: everything 10_state.md gives it (R20 to R36), and the model's own
counter of free values (notes/assumptions/4.md). No stop of the machine is hidden in it: a fault raised by an
instruction is the fault record FLT of the next state (R35, R177).
-/
namespace Sys2Proof.Machine

/-- The fault causes of 60_exceptions.md R170. -/
inductive Cause where
  /-- Code 0: the machine is not FAULTED. -/
  | noFault
  /-- Code 1: a word that matches no row of R74 (R171). -/
  | unimplementedInstruction
  /-- Code 2: a byte address of 4096 or more (R172). -/
  | memOutOfRange
  /-- Code 3: CALL on a full stack (R173). -/
  | stackOverflow
  /-- Code 4: RET on an empty stack (R174). -/
  | stackUnderflow
  /-- Code 5: a key index above 15 in Ex9E or ExA1 (R175). -/
  | keyIndexOutOfRange
  /-- Code 6: a program that does not fit (R176). -/
  | loadOverflow
  deriving DecidableEq, Repr

/-- The code of a cause (R170, decision D7: notes/assumptions/15.md). -/
def Cause.code : Cause → Nat
  | .noFault => 0
  | .unimplementedInstruction => 1
  | .memOutOfRange => 2
  | .stackOverflow => 3
  | .stackUnderflow => 4
  | .keyIndexOutOfRange => 5
  | .loadOverflow => 6

/-- FLT, the fault record: a cause and 16 bits of info (R35). -/
structure Flt where
  cause : Cause
  info : Word16
  deriving DecidableEq, Repr

/-- FLT when the machine is not FAULTED: cause 0, info 0 (R36, R170). -/
def Flt.none : Flt := ⟨.noFault, 0⟩

/-- Memory: the cells that differ from the reset contents, addresses strictly rising (20_memory.md R50). -/
abbrev Memory := List Host.Cell

/-- The register file (R20). -/
abbrev Regs := Vector Byte 16

/-- The framebuffer: 32 rows of 64 bits (R34). Bit x of the entry y is `FB[y][x]`, 1 = set; every access goes through
`Framebuffer.pixel`, `toggle` and `clear` (Machine/Ops.lean), so no layout is visible (D22; notes/assumptions/19.md). -/
abbrev Framebuffer := Vector (BitVec 64) 32

/-- The architectural state of 10_state.md. -/
structure State where
  /-- V0 to VF (R20). -/
  v : Regs
  /-- I (R23). -/
  i : Word16
  /-- PC (R24). -/
  pc : Word16
  /-- SP, the next free stack slot (R26). -/
  sp : Word16
  /-- The return stack (R27). -/
  stack : Vector Word16 16
  /-- DT (R30). -/
  dt : Byte
  /-- ST (R31). -/
  st : Byte
  /-- The keypad, true = down (R32). -/
  keys : Vector Bool 16
  /-- The framebuffer (R34). -/
  fb : Framebuffer
  /-- Memory (R33). -/
  mem : Memory
  /-- FLT (R35). -/
  flt : Flt
  /-- THE MODEL'S OWN: how many free values have been taken (notes/assumptions/4.md). No claim rests on its value. -/
  draws : Nat
  deriving DecidableEq, Repr

/-- The machine right after reset: the table of R36, PC at RESET_PC. Nothing is listed in memory, so that memory reads as
the reset contents: the font and zeros (R33). `draws` is the model's own (DESIGN CHOICE 0, notes/assumptions/4.md). -/
def State.reset : State where
  v := Vector.replicate 16 0
  i := 0
  pc := resetPc
  sp := 0
  stack := Vector.replicate 16 0
  dt := 0
  st := 0
  keys := Vector.replicate 16 false
  fb := Vector.replicate 32 0
  mem := []
  flt := .none
  draws := 0

/-- Why the machine stops with no next state. The six causes of R170 are NOT here: the step that raises one answers a next
state with FLT written (R177). -/
inductive Fault where
  /-- Raised by `step` and by `event` (but for reset) in the FAULTED state: the machine is halted and has no successor but
  by reset (R97, R177, 93_implementation_defined.md U16 'stuck'). It carries FLT, which the host reads with the `fault`
  query. Safe: the machine makes no progress in this state. -/
  | halted (flt : Flt)
  /-- Raised by RET (00EE) when SP is above 16, where the entry that Pop would read does not exist. No run reaches such a
  state (R29). Safe: the model stops. -/
  | stackIndexOutOfRange (sp : Word16)
  deriving DecidableEq, Repr

/-- Why an instruction has no meaning in the model. -/
inductive Refusal where
  /-- Raised by an arm of `exec` for an instruction that has no meaning yet; no arm does. Safe: the model stops. -/
  | notModelled (mnemonic : String)
  deriving DecidableEq, Repr

end Sys2Proof.Machine
end

