-- ==== Sys2Proof/Machine/Ops.lean ====
section
/-!
DEFINITION. The named operations over memory, registers, stack, keypad, framebuffer and the fault record: the primitives
of 00_scope.md R9. Raising a fault is ONE operation, `raise` (60_exceptions.md R177). There is no return from a fault
(R179); its only exit, the host's reset event, is `hostReset` in Machine/Events.lean.
-/
namespace Sys2Proof.Machine

/-- What a step answers. -/
abbrev Result := Host.Outcome State Fault Refusal

/-! ### Memory -/

/-- What an address that is not listed reads as: the reset contents, FONT in 0 to 79 and 0 above (10_state.md R33, R36;
notes/assumptions/2.md). -/
def initByte (a : Nat) : Byte := fontTable.getD a 0

/-- The byte at an address. -/
def Memory.read : Memory → Nat → Byte
  | [], a => initByte a
  | (k, b) :: m, a => if a = k then b else Memory.read m a

/-- Memory with the byte at `a` replaced, in canonical form again. -/
def Memory.write : Memory → Nat → Byte → Memory
  | [], a, v => if v = initByte a then [] else [(a, v)]
  | (k, b) :: m, a, v =>
    if a < k then (if v = initByte a then (k, b) :: m else (a, v) :: (k, b) :: m)
    else if a = k then (if v = initByte a then m else (a, v) :: m)
    else (k, b) :: Memory.write m a v

/-- The canonical form of the cells from address `lo` up: addresses strictly rising and below 4096, no entry equal to what
an unlisted address reads as. -/
def Memory.wfFrom : Nat → Memory → Bool
  | _, [] => true
  | lo, (k, b) :: m =>
    decide (lo ≤ k) && decide (k < Config.memSize) && decide (b ≠ initByte k) && Memory.wfFrom (k + 1) m

/-- Memory is in its canonical form. -/
def Memory.wf (m : Memory) : Bool := Memory.wfFrom 0 m

/-- `MemRead(addr, 1)` of 20_memory.md R51: the byte, or the out-of-range address. `addr` is an unbounded natural number,
so nothing wraps (R58). -/
def memRead (m : Memory) (a : Nat) : Except Nat Byte :=
  if a ≥ Config.memSize then .error a else .ok (m.read a)

/-- `MemWrite(addr, 1, v)` of R51. -/
def memWrite (m : Memory) (a : Nat) (v : Byte) : Except Nat Memory :=
  if a ≥ Config.memSize then .error a else .ok (m.write a v)

/-- `MemRead(addr, 2)` of R52: high byte first; the error is the first missing byte's address. -/
def memReadWord (m : Memory) (a : Nat) : Except Nat Word16 :=
  match memRead m a with
  | .error e => .error e
  | .ok hi =>
    match memRead m (a + 1) with
    | .error e => .error e
    | .ok lo => .ok (wordOfBytes hi lo)

/-- `n` bytes read at ascending addresses from `a` (R53), up to the first out-of-range address. -/
def memReads (m : Memory) (a : Nat) : Nat → Except Nat (List Byte)
  | 0 => .ok []
  | n + 1 =>
    match memRead m a with
    | .error e => .error e
    | .ok b =>
      match memReads m (a + 1) n with
      | .error e => .error e
      | .ok bs => .ok (b :: bs)

/-- Bytes written at ascending addresses from `a` (R53), up to the first out-of-range address. -/
def memWrites (m : Memory) (a : Nat) : List Byte → Except Nat Memory
  | [] => .ok m
  | b :: bs =>
    match memWrite m a b with
    | .error e => .error e
    | .ok m' => memWrites m' (a + 1) bs

/-- What a store that faulted part way may have left (R178): of the bytes for in-range addresses, the `k`-th (counting on
from `k`) is written iff `done k`. -/
def memWritesSome (done : Nat → Bool) (m : Memory) (a k : Nat) : List Byte → Memory
  | [] => m
  | b :: bs =>
    if a < Config.memSize then
      memWritesSome done (if done k then m.write a b else m) (a + 1) (k + 1) bs
    else m

/-! ### Registers -/

/-- `V[x]` (R20). -/
def State.reg (s : State) (x : Nibble) : Byte := s.v.get x.toFin

/-- `V[x] <- b` (R20). -/
def State.setReg (s : State) (x : Nibble) (b : Byte) : State := { s with v := s.v.set x.toFin b }

/-- VF is `V[15]` (R21). -/
def vf : Nibble := 0xF

/-- The result to `V[x]`, then the flag to VF: the flag write is the last (10_state.md R22, 42_alu.md R133, D13;
notes/assumptions/10.md). -/
def State.setRegFlag (s : State) (x : Nibble) (r flag : Byte) : State := (s.setReg x r).setReg vf flag

/-- `V[k], V[k+1], … <- bs` (R145); no register beyond VF exists. -/
def loadRegs (v : Regs) (k : Nat) : List Byte → Regs
  | [] => v
  | b :: bs => loadRegs (v.setIfInBounds k b) (k + 1) bs

/-- What a load that faulted part way may have left (R178): of the registers whose byte is in range, the `k`-th is loaded
iff `done k`. -/
def loadRegsSome (done : Nat → Bool) (m : Memory) (v : Regs) (a k : Nat) : Nat → Regs
  | 0 => v
  | n + 1 =>
    if a < Config.memSize then
      loadRegsSome done m (if done k then v.setIfInBounds k (m.read a) else v) (a + 1) (k + 1) n
    else v

/-- V0 to Vx inclusive, in order (R144). -/
def State.regsUpTo (s : State) (x : Nibble) : List Byte := s.v.toList.take (x.toNat + 1)

/-! ### Program counter -/

/-- `pc <- target` (R9). -/
def State.setPc (s : State) (t : Word16) : State := { s with pc := t }

/-- `pc <- pc + 2`: the advance after the fetch (40_step_cycle.md R92), and a skip (41_control_flow.md R109). -/
def State.advance (s : State) : State := s.setPc (s.pc + 2)

/-- `pc <- pc - 2`: back to the instruction being executed (R92 (d), R162). -/
def State.rewind (s : State) : State := s.setPc (s.pc - 2)

/-- Skip the next instruction when `c` holds (R109). -/
def State.skipIf (s : State) (c : Bool) : State := if c then s.advance else s

/-! ### Faults -/

/-- `raise Fault(cause, info)` (60_exceptions.md R177): FLT is written, and nothing else happens; info is 16 bits (R170). -/
def raise (c : Cause) (info : Nat) (s : State) : State := { s with flt := ⟨c, BitVec.ofNat 16 info⟩ }

/-- A fault raised by an instruction that is executing, PC being advanced already: after it PC is a + 2 or a, a free value
(R178; notes/assumptions/5.md). -/
def raiseInStep (c : Cause) (info : Nat) (s : State) : State :=
  raise c info { (if Config.faultPcAdvanced s.draws then s else s.rewind) with draws := s.draws + 1 }

/-- FAULTED: FLT.cause is not 0 (R35). -/
def State.faulted (s : State) : Bool := decide (s.flt.cause ≠ .noFault)

/-- Fetch (R91): the word at PC, or the out-of-range address. -/
def State.fetch (s : State) : Except Nat Word16 := memReadWord s.mem s.pc.toNat

/-- The fetch found an address out of range: MemOutOfRange, and nothing else, PC not being advanced yet (R90, R91;
notes/assumptions/22.md). -/
def fetchFault (a : Nat) (s : State) : Result := .next (raise .memOutOfRange a s)

/-- The unimplemented instruction: raised at decode, PC being advanced already (R95, R171). -/
def unimplemented (w : Word16) (s : State) : Result :=
  .next (raiseInStep .unimplementedInstruction w.toNat s)

/-- Bytes stored at `I`, `I + 1`, … (R143, R144); MemOutOfRange at the first address that is out of range (R172), with
R178's free choice of the bytes written before it. -/
def storeAtI (bs : List Byte) (s : State) : Result :=
  match memWrites s.mem s.i.toNat bs with
  | .ok m => .next { s with mem := m }
  | .error a =>
    .next (raiseInStep .memOutOfRange a
      { s with mem := memWritesSome (Config.faultEffectDone s.draws) s.mem s.i.toNat 0 bs })

/-- V0 to V(n-1) loaded from `I`, `I + 1`, … (R145); MemOutOfRange at the first address that is out of range, with R178's
free choice of the registers loaded before it. -/
def loadFromI (n : Nat) (s : State) : Result :=
  match memReads s.mem s.i.toNat n with
  | .ok bs => .next { s with v := loadRegs s.v 0 bs }
  | .error a =>
    .next (raiseInStep .memOutOfRange a
      { s with v := loadRegsSome (Config.faultEffectDone s.draws) s.mem s.v s.i.toNat 0 n })

/-! ### The stack -/

/-- `Stack[SP] <- v; SP <- SP + 1` (10_state.md R28), where SP is below 16. -/
def State.pushed (s : State) (v : Word16) : State :=
  { s with stack := s.stack.setIfInBounds s.sp.toNat v, sp := s.sp + 1 }

/-- `Push(v)` (R28): none is StackOverflow. -/
def push (v : Word16) (s : State) : Option State :=
  if s.sp.toNat ≥ Config.stackDepth then none else some (s.pushed v)

/-- What `Pop()` finds. -/
inductive PopResult where
  /-- The value read, and the state with SP decremented. -/
  | value (v : Word16) (s : State)
  /-- SP = 0: StackUnderflow (R28). -/
  | underflow
  /-- SP above 16, which no run reaches (R29): there is no entry to read (notes/assumptions/13.md). -/
  | noEntry
  deriving DecidableEq, Repr

/-- `Pop()` (R28): `SP <- SP - 1; return Stack[SP]`; the entry is not cleared. -/
def pop (s : State) : PopResult :=
  if s.sp = 0 then .underflow
  else
    match s.stack[s.sp.toNat - 1]? with
    | some v => .value v { s with sp := s.sp - 1 }
    | none => .noEntry

/-! ### Keypad -/

/-- `Key[k]` for a byte `k`; none when `k > 15` (R160, D4). -/
def State.keyAt (s : State) (k : Byte) : Option Bool := s.keys[k.toNat]?

/-! ### Framebuffer -/

/-- `FB[y][x]` (R34). -/
def Framebuffer.pixel (fb : Framebuffer) (x : Fin 64) (y : Fin 32) : Bool := (fb.get y).getLsbD x.val

/-- `toggle_pixel(x, y)` (44_display.md R153). -/
def Framebuffer.toggle (fb : Framebuffer) (x : Fin 64) (y : Fin 32) : Framebuffer :=
  fb.set y (fb.get y ^^^ BitVec.twoPow 64 x.val)

/-- All pixels unset (R150). -/
def Framebuffer.clear : Framebuffer := Vector.replicate 32 0

/-- The blitter's working state: the framebuffer and the sticky collision bit (R151). -/
structure Blit where
  fb : Framebuffer
  collision : Bool
  deriving DecidableEq, Repr

/-- One set sprite bit at the wrapped pixel (px, py): note a collision if the pixel is set, then toggle it (R151). -/
def Blit.bit (b : Blit) (px : Fin 64) (py : Fin 32) : Blit :=
  { fb := b.fb.toggle px py, collision := b.collision || b.fb.pixel px py }

/-- One sprite row at column `x0` and row `y`, both before wrapping: its bits lx = 0 to 7; a 0 bit does nothing (R151). -/
def Blit.row (b : Blit) (x0 y : Nat) (row : Byte) : Blit :=
  (List.range 8).foldl
    (fun b lx => if spriteBit row lx then b.bit (Fin.ofNat 64 (x0 + lx)) (Fin.ofNat 32 y) else b) b

/-- The rows of a sprite, from row `y` down (R151). -/
def Blit.sprite (b : Blit) (x0 y : Nat) : List Byte → Blit
  | [] => b
  | r :: rs => (b.row x0 y r).sprite x0 (y + 1) rs

end Sys2Proof.Machine
end

