-- ==== Sys2Proof/Machine/Alu.lean ====
section
/-!
DEFINITION. The register load, arithmetic, logic, shift and random instructions (42_alu.md). Both operands are read before
anything is written, and a flag is written last (10_state.md R22, R133).
-/
namespace Sys2Proof.Machine

/-- LD Vx, nn (R120). -/
def execLdImm (x : Nibble) (nn : Byte) (s : State) : Result := .next (s.setReg x nn)

/-- ADD Vx, nn (R121): wrapping, no flag. -/
def execAddImm (x : Nibble) (nn : Byte) (s : State) : Result := .next (s.setReg x (s.reg x + nn))

/-- LD Vx, Vy (R122). -/
def execLdReg (x y : Nibble) (s : State) : Result := .next (s.setReg x (s.reg y))

/-- OR Vx, Vy (R123): no flag. -/
def execOrReg (x y : Nibble) (s : State) : Result := .next (s.setReg x (s.reg x ||| s.reg y))

/-- AND Vx, Vy (R124): no flag. -/
def execAndReg (x y : Nibble) (s : State) : Result := .next (s.setReg x (s.reg x &&& s.reg y))

/-- XOR Vx, Vy (R125): no flag. -/
def execXorReg (x y : Nibble) (s : State) : Result := .next (s.setReg x (s.reg x ^^^ s.reg y))

/-- ADD Vx, Vy (R126): VF = carry. -/
def execAddReg (x y : Nibble) (s : State) : Result :=
  .next (s.setRegFlag x (s.reg x + s.reg y) (carryFlag (s.reg x) (s.reg y)))

/-- SUB Vx, Vy (R127): Vx - Vy, VF = not borrow. -/
def execSubReg (x y : Nibble) (s : State) : Result :=
  .next (s.setRegFlag x (s.reg x - s.reg y) (notBorrowFlag (s.reg x) (s.reg y)))

/-- SHR Vx (R128): one bit right, VF = the bit shifted out; Vy is not looked at (R76). -/
def execShr (x : Nibble) (s : State) : Result :=
  .next (s.setRegFlag x (s.reg x >>> 1) (lowBitFlag (s.reg x)))

/-- SUBN Vx, Vy (R129): Vy - Vx, VF = not borrow. -/
def execSubnReg (x y : Nibble) (s : State) : Result :=
  .next (s.setRegFlag x (s.reg y - s.reg x) (notBorrowFlag (s.reg y) (s.reg x)))

/-- SHL Vx (R130): one bit left, VF = the bit shifted out; Vy is not looked at (R76). -/
def execShl (x : Nibble) (s : State) : Result :=
  .next (s.setRegFlag x (s.reg x <<< 1) (highBitFlag (s.reg x)))

/-- RND Vx, nn with the drawn byte `r`, the `rnd` argument of the step event (R131, R187). -/
def execRndWith (r : Byte) (x : Nibble) (nn : Byte) (s : State) : Result :=
  .next { s.setReg x (r &&& nn) with draws := s.draws + 1 }

/-- RND Vx, nn (R131): the drawn byte is a free value (D16; notes/assumptions/4.md). -/
def execRnd (x : Nibble) (nn : Byte) (s : State) : Result :=
  execRndWith (Config.drawnByte s.draws) x nn s

end Sys2Proof.Machine
end

