-- ==== Sys2Proof/Machine/Operands.lean ====
section
/-!
DEFINITION. The operand forms beyond a plain register or immediate (30_encoding.md R72, 43_index_memory.md R141 to R143).
-/
namespace Sys2Proof.Machine

/-- The jump and call target nnn (R72). -/
def targetOf (nnn : Addr12) : Word16 := zextAddr nnn

/-- `V[0] + zext_16(nnn)` in 16 bits (R104). -/
def targetV0 (nnn : Addr12) (s : State) : Word16 := zextByte (s.reg 0) + zextAddr nnn

/-- The address of glyph `b`: `b * 5`, on the whole byte, in 16 bits (R142, D14; notes/assumptions/11.md). -/
def glyphAddr (b : Byte) : Word16 := BitVec.ofNat 16 (b.toNat * Config.glyphHeight)

/-- The three decimal digits of a byte, hundreds first (R143). -/
def bcdDigits (b : Byte) : List Byte :=
  [BitVec.ofNat 8 (b.toNat / 100), BitVec.ofNat 8 (b.toNat / 10 % 10), BitVec.ofNat 8 (b.toNat % 10)]

/-- A key index as an 8-bit number (R162). -/
def keyByte (k : Fin 16) : Byte := BitVec.ofNat 8 k.val

end Sys2Proof.Machine
end

