-- ==== Sys2Proof/Machine/Control.lean ====
section
/-!
DEFINITION. The control-flow instructions (41_control_flow.md). On entry PC is already a + 2, the address of the following
instruction (40_step_cycle.md R92).
-/
namespace Sys2Proof.Machine

/-- NOP (R100). -/
def execNop (s : State) : Result := .next s

/-- RET (R101): `pc <- Pop()`; StackUnderflow on an empty stack (R174). -/
def execRet (s : State) : Result :=
  match pop s with
  | .value v t => .next (t.setPc v)
  | .underflow => .next (raiseInStep .stackUnderflow 0 s)
  | .noEntry => .fault (.stackIndexOutOfRange s.sp)

/-- JP nnn (R102). -/
def execJp (nnn : Addr12) (s : State) : Result := .next (s.setPc (targetOf nnn))

/-- CALL nnn (R103): Push(pc), then the jump; StackOverflow on a full stack, before anything is written (R173). -/
def execCall (nnn : Addr12) (s : State) : Result :=
  match push s.pc s with
  | some t => .next (t.setPc (targetOf nnn))
  | none => .next (raiseInStep .stackOverflow s.sp.toNat s)

/-- JP V0, nnn (R104). -/
def execJpV0 (nnn : Addr12) (s : State) : Result := .next (s.setPc (targetV0 nnn s))

/-- SE Vx, nn (R105). -/
def execSeImm (x : Nibble) (nn : Byte) (s : State) : Result := .next (s.skipIf (s.reg x == nn))

/-- SNE Vx, nn (R106). -/
def execSneImm (x : Nibble) (nn : Byte) (s : State) : Result := .next (s.skipIf (s.reg x != nn))

/-- SE Vx, Vy (R107). -/
def execSeReg (x y : Nibble) (s : State) : Result := .next (s.skipIf (s.reg x == s.reg y))

/-- SNE Vx, Vy (R108). -/
def execSneReg (x y : Nibble) (s : State) : Result := .next (s.skipIf (s.reg x != s.reg y))

end Sys2Proof.Machine
end

