-- ==== Sys2Proof/Machine/Display.lean ====
section
/-!
DEFINITION. The display instructions (44_display.md).
-/
namespace Sys2Proof.Machine

/-- CLS (R150): no flag. -/
def execCls (s : State) : Result := .next { s with fb := .clear }

/-- DRW Vx, Vy, n (R151): the coordinates and all the sprite bytes are read first, so that an out-of-range sprite faults
with the framebuffer and VF untouched; VF is written on every execution, n = 0 included. -/
def execDrw (x y n : Nibble) (s : State) : Result :=
  match memReads s.mem s.i.toNat n.toNat with
  | .error a => .next (raiseInStep .memOutOfRange a s)
  | .ok rows =>
    let b := Blit.sprite ⟨s.fb, false⟩ (s.reg x).toNat (s.reg y).toNat rows
    .next (State.setReg { s with fb := b.fb } vf (collisionFlag b.collision))

end Sys2Proof.Machine
end

