-- ==== Sys2Proof/Machine/IndexMemory.lean ====
section
/-!
DEFINITION. The index-register and memory instructions (43_index_memory.md). Fx33, Fx55 and Fx65 leave I unchanged (R146).
-/
namespace Sys2Proof.Machine

/-- LD I, nnn (R140). -/
def execLdI (nnn : Addr12) (s : State) : Result := .next { s with i := zextAddr nnn }

/-- ADD I, Vx (R141): wrapping at 16 bits, no flag. -/
def execAddI (x : Nibble) (s : State) : Result := .next { s with i := s.i + zextByte (s.reg x) }

/-- LD F, Vx (R142). -/
def execLdF (x : Nibble) (s : State) : Result := .next { s with i := glyphAddr (s.reg x) }

/-- LD B, Vx (R143). -/
def execLdB (x : Nibble) (s : State) : Result := storeAtI (bcdDigits (s.reg x)) s

/-- LD [I], Vx (R144): x is a count, V0 to Vx are stored. -/
def execLdMemVx (x : Nibble) (s : State) : Result := storeAtI (s.regsUpTo x) s

/-- LD Vx, [I] (R145): V0 to Vx are loaded. -/
def execLdVxMem (x : Nibble) (s : State) : Result := loadFromI (x.toNat + 1) s

end Sys2Proof.Machine
end

