-- ==== Sys2Proof/Machine/Keypad.lean ====
section
/-!
DEFINITION. The keypad and timer instructions (45_keypad_timers.md).
-/
namespace Sys2Proof.Machine

/-- Skip when key `Vx` is `down` (R160, R161); KeyIndexOutOfRange when Vx is above 15 (R175, D4;
notes/assumptions/14.md). -/
def skipOnKey (x : Nibble) (down : Bool) (s : State) : Result :=
  match s.keyAt (s.reg x) with
  | some d => .next (s.skipIf (d == down))
  | none => .next (raiseInStep .keyIndexOutOfRange (s.reg x).toNat s)

/-- SKP Vx (R160). -/
def execSkp (x : Nibble) (s : State) : Result := skipOnKey x true s

/-- SKNP Vx (R161). -/
def execSknp (x : Nibble) (s : State) : Result := skipOnKey x false s

/-- LD Vx, DT (R163). -/
def execLdVxDt (x : Nibble) (s : State) : Result := .next (s.setReg x s.dt)

/-- LD Vx, K (R162): the selected key that is down, or, none being down, back to this instruction (a busy-poll). -/
def execLdVxK (x : Nibble) (s : State) : Result :=
  match keySel s.keys with
  | some k => .next (s.setReg x (keyByte k))
  | none => .next s.rewind

/-- LD DT, Vx (R164). -/
def execLdDtVx (x : Nibble) (s : State) : Result := .next { s with dt := s.reg x }

/-- LD ST, Vx (R165). -/
def execLdStVx (x : Nibble) (s : State) : Result := .next { s with st := s.reg x }

end Sys2Proof.Machine
end

