-- ==== Sys2Proof/Machine/Step.lean ====
section
/-!
DEFINITION. The step event (40_step_cycle.md R90): fetch, advance PC, decode, execute. `step` takes the drawn byte of Cxnn
from a free value; `stepWith` takes it as the argument `rnd` of R90.
-/
namespace Sys2Proof.Machine

/-- R90 around a way `run` of executing a decoded instruction. In FAULTED the machine is halted and stays so (R97, R177;
notes/assumptions/6.md). -/
def stepBy (run : Instr → State → Result) (s : State) : Result :=
  if s.faulted then .fault (.halted s.flt)
  else
    match s.fetch with
    | .error a => fetchFault a s
    | .ok w =>
      match decodeWord w with
      | .ok i => run i s.advance
      | .error _ => unimplemented w s.advance

/-- One instruction executed, the drawn byte being a free value. -/
def step (s : State) : Host.Outcome State Fault Refusal := stepBy exec s

/-- `exec` with the drawn byte given: only Cxnn uses it (R131). -/
def execWith (r : Byte) (i : Instr) (s : State) : Result :=
  match i with
  | .rnd x nn => execRndWith r x nn s
  | j => exec j s

/-- `step(rnd)` of R90. -/
def stepWith (r : Byte) (s : State) : Result := stepBy (execWith r) s

/-- Bytes placed in memory at ascending addresses; one at 4096 or above has no place and is left out. -/
def placeBytes (m : Memory) (a : Nat) (bs : List Byte) : Memory := memWritesSome (fun _ => true) m a 0 bs

/-- The host's question: `s` with the instruction word `w` stored where `step` fetches its next instruction, at PC and
PC + 1 (notes/assumptions/1.md). -/
def State.withFetchWord (s : State) (nbits w : Nat) : State :=
  { s with mem := placeBytes s.mem s.pc.toNat (tableWordBytes nbits w) }

end Sys2Proof.Machine
end

