-- ==== Sys2Proof/Machine/Events.lean ====
section
/-!
DEFINITION. The host's events and queries (00_scope.md R6) beside `step`: reset, load, tick, key_down, key_up; pixel and
fault. Each is atomic and falls between instructions (R6, R96). A claim about every host quantifies over every list of
events (R7, 60_exceptions.md R191).
-/
namespace Sys2Proof.Machine

/-- `reset` (70_reset_and_hazards.md R200): every piece of the spec's state at its reset value, in every state, FAULTED
included. The model's own counter of free values goes on, so that no byte drawn before is said to be drawn again
(notes/assumptions/21.md). -/
def hostReset (s : State) : State := { State.reset with draws := s.draws + 1 }

/-- Bytes copied to ascending addresses (R203), all of them in range. -/
def copyBytes (m : Memory) (a : Nat) : List Byte → Memory
  | [] => m
  | b :: bs => copyBytes (m.write a b) (a + 1) bs

/-- `load(bytes)` (R203, R204): LoadOverflow before any byte is copied, or the program at 512 and PC = 512. No effect in
FAULTED. -/
def hostLoad (bytes : List Byte) (s : State) : State :=
  if s.faulted then s
  else if Config.loadOffset + bytes.length > Config.memSize then
    raise .loadOverflow (Config.loadOffset + bytes.length) s
  else { s with mem := copyBytes s.mem Config.loadOffset bytes, pc := BitVec.ofNat 16 Config.loadOffset }

/-- A timer counts down by 1 and stops at 0 (60_exceptions.md R183). -/
def countDown (t : Byte) : Byte := if t = 0 then 0 else t - 1

/-- `tick` (R183): the state after it and the output `buzz` (R184). No effect in FAULTED, `buzz` = 0. -/
def tick (s : State) : State × Bool :=
  if s.faulted then (s, false)
  else ({ s with dt := countDown s.dt, st := countDown s.st }, s.st != 0)

/-- `Key[k] <- down` (R185). No effect in FAULTED. -/
def setKey (k : Nibble) (down : Bool) (s : State) : State :=
  if s.faulted then s else { s with keys := s.keys.set k.toFin down }

/-- `key_down(k)` (R185). -/
def keyDown (k : Nibble) (s : State) : State := setKey k true s

/-- `key_up(k)` (R185). -/
def keyUp (k : Nibble) (s : State) : State := setKey k false s

/-- The `pixel(x, y)` query (R186): x = 0 the left column, y = 0 the top row (D22; notes/assumptions/19.md). -/
def pixelQuery (s : State) (x : Fin 64) (y : Fin 32) : Bool := s.fb.pixel x y

/-- The `fault` query (R177). -/
def faultQuery (s : State) : Flt := s.flt

/-- The events of R6. -/
inductive Event where
  | reset
  | load (bytes : List Byte)
  | step (rnd : Byte)
  | tick
  | keyDown (k : Nibble)
  | keyUp (k : Nibble)
  deriving DecidableEq, Repr

/-- An event in a machine that is not FAULTED. -/
def eventLive (e : Event) (s : State) : Result :=
  match e with
  | .reset => .next (hostReset s)
  | .load bytes => .next (hostLoad bytes s)
  | .step r => stepWith r s
  | .tick => .next (tick s).1
  | .keyDown k => .next (keyDown k s)
  | .keyUp k => .next (keyUp k s)

/-- One event. A FAULTED machine has no successor but by reset (R177; notes/assumptions/6.md). -/
def event (e : Event) (s : State) : Result :=
  if s.faulted && e != .reset then .fault (.halted s.flt) else eventLive e s

/-- A sequence of events, in the host's order, stopping where the machine stops. -/
def runEvents : List Event → State → Result
  | [], s => .next s
  | e :: es, s =>
    match event e s with
    | .next t => runEvents es t
    | .fault r => .fault r
    | .refused r => .refused r

end Sys2Proof.Machine
end

