-- ==== Sys2Proof/Safety.lean ====
section
/-!
DEFINITION. The terms in which claims speak: the invariant of every reachable state, reachability over the host's events,
and the frame vocabulary (which parts of the state an instruction leaves unchanged).
-/
namespace Sys2Proof.Machine

/-- What holds in every state that events reach from reset: memory is in its canonical form; 0 <= SP <= 16 (10_state.md
R29); PC is at most 0x10FE (R25); every stack entry is at most 4096 (R25, R27); without a fault, info is 0 (60_exceptions.md
R170, row 0). -/
abbrev State.Inv (s : State) : Prop :=
  s.mem.wf = true ∧ s.sp.toNat ≤ 16 ∧ s.pc.toNat ≤ 0x10FE ∧
    (∀ k : Fin 16, (s.stack.get k).toNat ≤ 4096) ∧ (s.flt.cause = .noFault → s.flt.info = 0)

/-- The states that the host's events reach from reset (00_scope.md R6, R7; 70_reset_and_hazards.md R205). -/
inductive Reachable : State → Prop where
  | reset : Reachable State.reset
  | event (e : Event) (s t : State) : Reachable s → event e s = .next t → Reachable t

/-- The parts of the state, for frames. -/
inductive Part where
  | v | i | pc | sp | stack | dt | st | keys | fb | mem | flt | draws
  deriving DecidableEq, Repr

/-- The part `p` reads the same in `t` as in `s`: every register, every stack entry, every key, every pixel, every byte of
memory. -/
def Part.same (p : Part) (s t : State) : Prop :=
  match p with
  | .v => ∀ r, t.reg r = s.reg r
  | .i => t.i = s.i
  | .pc => t.pc = s.pc
  | .sp => t.sp = s.sp
  | .stack => ∀ k : Fin 16, t.stack.get k = s.stack.get k
  | .dt => t.dt = s.dt
  | .st => t.st = s.st
  | .keys => ∀ k : Fin 16, t.keys.get k = s.keys.get k
  | .fb => ∀ x y, t.fb.pixel x y = s.fb.pixel x y
  | .mem => ∀ a, t.mem.read a = s.mem.read a
  | .flt => t.flt = s.flt
  | .draws => t.draws = s.draws

/-- Everything but the parts in `changed` is the same in `t` as in `s`. -/
def KeepsAllBut (changed : List Part) (s t : State) : Prop := ∀ p, p ∉ changed → p.same s t

/-- `t` is `s` with `val` in the register x and nothing else changed. -/
def WritesReg (x : Nibble) (val : Byte) (s t : State) : Prop :=
  (∀ r, t.reg r = if r = x then val else s.reg r) ∧ KeepsAllBut [.v] s t

/-- `t` is `s` with `flag` in VF, `val` in the register x when x is not VF, and nothing else changed (42_alu.md R133). -/
def WritesRegAndFlag (x : Nibble) (val flag : Byte) (s t : State) : Prop :=
  (∀ r, t.reg r = if r = 0xF then flag else if r = x then val else s.reg r) ∧ KeepsAllBut [.v] s t

/-- `t` is `s` with PC at `target` and nothing else changed. -/
def WritesPc (target : Word16) (s t : State) : Prop := t.pc = target ∧ KeepsAllBut [.pc] s t

/-- `t` is what a fault raised by an executing instruction may leave of `s`: FLT written, PC at a + 2 (as in `s`) or a, and
nothing else changed but the parts in `partly` (60_exceptions.md R177, R178). -/
def FaultsWith (cause : Cause) (info : Word16) (partly : List Part) (s t : State) : Prop :=
  t.flt = ⟨cause, info⟩ ∧ (t.pc = s.pc ∨ t.pc = s.pc - 2) ∧ KeepsAllBut ([.pc, .flt, .draws] ++ partly) s t

/-- The first address out of range of a transfer that starts at `a` and does not fit (R172). -/
def firstBadAddress (a : Nat) : Nat := if 4096 ≤ a then a else 4096

/-- The sprite mask S of 44_display.md R152 for `DRW Vx, Vy, n` in the state `s`: some set bit (ly, lx) of the sprite lands
on (px, py). -/
def SpriteMask (s : State) (x y n : Nibble) (px : Fin 64) (py : Fin 32) : Prop :=
  ∃ ly lx : Nat, ly < n.toNat ∧ lx < 8 ∧ px.val = ((s.reg x).toNat + lx) % 64 ∧
    py.val = ((s.reg y).toNat + ly) % 32 ∧ (s.mem.read (s.i.toNat + ly)).getLsbD (7 - lx) = true

/-- Values pushed in order; none if the stack fills up. -/
def pushAll : List Word16 → State → Option State
  | [], s => some s
  | v :: vs, s =>
    match push v s with
    | some t => pushAll vs t
    | none => none

/-- `n` values popped, the first popped first; none if the stack empties. -/
def popAll : Nat → State → Option (List Word16 × State)
  | 0, s => some ([], s)
  | n + 1, s =>
    match pop s with
    | .value v t =>
      match popAll n t with
      | some (vs, u) => some (v :: vs, u)
      | none => none
    | _ => none

/-- `n` ticks (60_exceptions.md R183). -/
def tickTimes : Nat → State → State
  | 0, s => s
  | n + 1, s => tickTimes n (tick s).1

/-- The parts that the spec lets an instruction change when it raises no fault (the instruction rules of files 41 to 45). -/
def changedParts (i : Instr) : List Part :=
  match i with
  | .nop => []
  | .cls => [.fb]
  | .ret => [.pc, .sp]
  | .jp _ | .jpV0 _ | .seImm _ _ | .sneImm _ _ | .seReg _ _ _ | .sneReg _ _ _ | .skp _ | .sknp _ => [.pc]
  | .call _ => [.pc, .sp, .stack]
  | .ldImm _ _ | .addImm _ _ | .ldReg _ _ | .orReg _ _ | .andReg _ _ | .xorReg _ _ | .addReg _ _
  | .subReg _ _ | .shr _ _ | .subnReg _ _ | .shl _ _ | .ldVxDt _ | .ldVxMem _ => [.v]
  | .ldI _ | .addI _ | .ldF _ => [.i]
  | .rnd _ _ => [.v, .draws]
  | .drw _ _ _ => [.v, .fb]
  | .ldVxK _ => [.v, .pc]
  | .ldDtVx _ => [.dt]
  | .ldStVx _ => [.st]
  | .ldB _ | .ldMemVx _ => [.mem]

/-- The registers that the spec lets an instruction write: its destination, V0 to Vx for Fx65, and VF for the six
flag-producing instructions (10_state.md R21). -/
def writesRegister (i : Instr) (r : Nibble) : Bool :=
  match i with
  | .ldImm x _ | .addImm x _ | .ldReg x _ | .orReg x _ | .andReg x _ | .xorReg x _ | .rnd x _ | .ldVxDt x
  | .ldVxK x => r == x
  | .addReg x _ | .subReg x _ | .shr x _ | .subnReg x _ | .shl x _ => r == x || r == 0xF
  | .drw _ _ _ => r == 0xF
  | .ldVxMem x => decide (r.toNat ≤ x.toNat)
  | _ => false

/-- An outcome with the next state changed by `f`. -/
def mapNext (f : State → State) (r : Result) : Result :=
  match r with
  | .next s => .next (f s)
  | .fault e => .fault e
  | .refused e => .refused e

/-- Two states that agree in everything but the stack entries at SP and above, which no program can observe (10_state.md
R27). -/
def SameButStaleStack (s t : State) : Prop :=
  { s with stack := t.stack } = t ∧ ∀ k : Fin 16, k.val < s.sp.toNat → t.stack.get k = s.stack.get k

/-- Two outcomes of the same kind: next states related by `R`, or the same stop. -/
def OutcomesAgree (R : State → State → Prop) (a b : Result) : Prop :=
  match a, b with
  | .next s, .next t => R s t
  | .fault e, .fault e' => e = e'
  | .refused e, .refused e' => e = e'
  | _, _ => False

/-- Mask and match of an instruction's row in the opcode map (30_encoding.md R74). -/
def opcodeMapRow (i : Instr) : Word16 × Word16 :=
  match i with
  | .nop => (0xFFFF, 0x0000)
  | .cls => (0xFFFF, 0x00E0)
  | .ret => (0xFFFF, 0x00EE)
  | .jp _ => (0xF000, 0x1000)
  | .call _ => (0xF000, 0x2000)
  | .seImm _ _ => (0xF000, 0x3000)
  | .sneImm _ _ => (0xF000, 0x4000)
  | .seReg _ _ _ => (0xF000, 0x5000)
  | .ldImm _ _ => (0xF000, 0x6000)
  | .addImm _ _ => (0xF000, 0x7000)
  | .ldReg _ _ => (0xF00F, 0x8000)
  | .orReg _ _ => (0xF00F, 0x8001)
  | .andReg _ _ => (0xF00F, 0x8002)
  | .xorReg _ _ => (0xF00F, 0x8003)
  | .addReg _ _ => (0xF00F, 0x8004)
  | .subReg _ _ => (0xF00F, 0x8005)
  | .shr _ _ => (0xF00F, 0x8006)
  | .subnReg _ _ => (0xF00F, 0x8007)
  | .shl _ _ => (0xF00F, 0x800E)
  | .sneReg _ _ _ => (0xF000, 0x9000)
  | .ldI _ => (0xF000, 0xA000)
  | .jpV0 _ => (0xF000, 0xB000)
  | .rnd _ _ => (0xF000, 0xC000)
  | .drw _ _ _ => (0xF000, 0xD000)
  | .skp _ => (0xF0FF, 0xE09E)
  | .sknp _ => (0xF0FF, 0xE0A1)
  | .ldVxDt _ => (0xF0FF, 0xF007)
  | .ldVxK _ => (0xF0FF, 0xF00A)
  | .ldDtVx _ => (0xF0FF, 0xF015)
  | .ldStVx _ => (0xF0FF, 0xF018)
  | .addI _ => (0xF0FF, 0xF01E)
  | .ldF _ => (0xF0FF, 0xF029)
  | .ldB _ => (0xF0FF, 0xF033)
  | .ldMemVx _ => (0xF0FF, 0xF055)
  | .ldVxMem _ => (0xF0FF, 0xF065)

/-- The unimplemented words of 30_encoding.md R75, family by family. -/
def UnimplementedWord (strict : Bool) (w : Word16) : Prop :=
  (nib1 w = 0x0 ∧ w ≠ 0x0000 ∧ w ≠ 0x00E0 ∧ w ≠ 0x00EE) ∨
  (nib1 w = 0x8 ∧ nib4 w ∈ [0x8, 0x9, 0xA, 0xB, 0xC, 0xD, 0xF]) ∨
  (nib1 w = 0xE ∧ fieldNn w ∉ [0x9E, 0xA1]) ∨
  (nib1 w = 0xF ∧ fieldNn w ∉ [0x07, 0x0A, 0x15, 0x18, 0x1E, 0x29, 0x33, 0x55, 0x65]) ∨
  (strict = true ∧ (nib1 w = 0x5 ∨ nib1 w = 0x9) ∧ nib4 w ≠ 0x0)

end Sys2Proof.Machine
end

