-- ==== Sys2Proof/Certificates/Slice0/Obligations.lean ====
section
/-!
DEFINITION. The statements for the provers, each over every state and operand that meets its hypotheses. `exec` runs with
PC already advanced (40_step_cycle.md R92), so that "PC unchanged" in a statement about `exec` is a + 2 of the spec, and
a statement reaches a run through `StepRunsTheDecodedInstruction`. Where a clause rests on a decision the spec marks as its
own, the docstring names it; the log entries are notes/assumptions/<n>.md.
-/

open Sys2Proof Sys2Proof.Machine

/-! ### Encoding -/

/-- R71, R74, R76, for both values of STRICT_D4 (D12, log 7): the decoder gives back every well-formed instruction with
every field it was encoded with. -/
def Obligations.DecodeOfEncodeIsTheInstruction : Prop :=
  ∀ (strict : Bool) (i : Instr), i.wellFormed strict = true → decodeWith strict (encode i) = .ok i

/-- R71, R73, for both values of STRICT_D4 (D12, log 7): a word that decodes is the encoding of what it decodes to, so no
bit of it is dropped. -/
def Obligations.EncodeOfDecodeIsTheWord : Prop :=
  ∀ (strict : Bool) (w : Word16) (i : Instr), decodeWith strict w = .ok i →
    encode i = w ∧ i.wellFormed strict = true

/-- R74: a word is the instruction of a row iff (w & mask) == match. That the rows 5xy- and 9xy- have the mask F000 holds with
STRICT_D4 = false alone (D12, log 7). -/
def Obligations.DecodingFollowsTheOpcodeMap : Prop :=
  ∀ (w : Word16) (i : Instr),
    w &&& (opcodeMapRow i).1 = (opcodeMapRow i).2 ↔
      ∃ j, decodeWord w = .ok j ∧ opcodeMapRow j = opcodeMapRow i

/-- R75, for both values of STRICT_D4 (D12, log 7): the words that decode to nothing are exactly the listed ones. -/
def Obligations.UnimplementedWordsAreExactlyTheListed : Prop :=
  ∀ (strict : Bool) (w : Word16),
    decodeWith strict w = .error (.unimplemented w) ↔ UnimplementedWord strict w

/-- Words of 95_test_vectors.md, one or more for each family d1 = 0 to F, decode to what they stand for, and 0x812D to none.
0x5127 and 0x912F, with d4 other than 0, decode by D12 (STRICT_D4 = false, log 7). -/
def Obligations.WordsOfTheSpecDecode : Prop :=
  decodeWord 0x0000 = .ok .nop ∧ decodeWord 0x00EE = .ok .ret ∧ decodeWord 0x1ABC = .ok (.jp 0xABC) ∧
  decodeWord 0x2ABC = .ok (.call 0xABC) ∧ decodeWord 0x332A = .ok (.seImm 3 0x2A) ∧
  decodeWord 0x432B = .ok (.sneImm 3 0x2B) ∧ decodeWord 0x5127 = .ok (.seReg 1 2 7) ∧
  decodeWord 0x63AB = .ok (.ldImm 3 0xAB) ∧ decodeWord 0x7301 = .ok (.addImm 3 0x01) ∧
  decodeWord 0x8125 = .ok (.subReg 1 2) ∧ decodeWord 0x812E = .ok (.shl 1 2) ∧
  decodeWord 0x912F = .ok (.sneReg 1 2 0xF) ∧ decodeWord 0xAFFF = .ok (.ldI 0xFFF) ∧
  decodeWord 0xB300 = .ok (.jpV0 0x300) ∧ decodeWord 0xC30F = .ok (.rnd 3 0x0F) ∧
  decodeWord 0xD123 = .ok (.drw 1 2 3) ∧ decodeWord 0xE3A1 = .ok (.sknp 3) ∧ decodeWord 0xF333 = .ok (.ldB 3) ∧
  decodeWord 0xF30A = .ok (.ldVxK 3) ∧ decodeWord 0x812D = .error (.unimplemented 0x812D)

/-! ### The step -/

/-- R90 to R93: in a machine that is not FAULTED, when the two bytes at PC (high byte first) decode to an instruction, the
step is that instruction run in the state with PC advanced by 2, and nothing is added after it. -/
def Obligations.StepRunsTheDecodedInstruction : Prop :=
  ∀ (s : State) (i : Instr), s.flt.cause = .noFault → s.pc.toNat ≤ 4094 →
    decodeWord (wordOfBytes (s.mem.read s.pc.toNat) (s.mem.read (s.pc.toNat + 1))) = .ok i →
    step s = exec i { s with pc := s.pc + 2 }

/-- R91 (D2, log 12; PC stays, log 22): a fetch with PC at 4095 or above raises MemOutOfRange, info being PC, or 4096 when PC
= 4095, and changes nothing else. -/
def Obligations.FetchBeyondMemoryFaults : Prop :=
  ∀ s : State, s.flt.cause = .noFault → 4095 ≤ s.pc.toNat →
    step s = .next { s with flt := ⟨.memOutOfRange, if s.pc.toNat = 4095 then 4096 else s.pc⟩ }

/-- R95, R171 (state after the fault: D6, log 5; code 1: D7, log 15): a fetched word that decodes to nothing raises
UnimplementedInstruction with the word as info; nothing else changes but PC, which is a or a + 2. -/
def Obligations.UnimplementedWordFaults : Prop :=
  ∀ (s : State) (w : Word16), s.flt.cause = .noFault → s.pc.toNat ≤ 4094 →
    w = wordOfBytes (s.mem.read s.pc.toNat) (s.mem.read (s.pc.toNat + 1)) → UnimplementedWord strictD4 w →
    ∃ t, step s = .next t ∧ FaultsWith .unimplementedInstruction w [] { s with pc := s.pc + 2 } t

/-- R97, R177 (D6, log 6: the model answers `halted`): a FAULTED machine has no successor by a step or by any event but
reset, and a tick leaves its state as it is with buzz = 0. -/
def Obligations.FaultedMachineIsStuck : Prop :=
  ∀ s : State, s.flt.cause ≠ .noFault →
    step s = .fault (.halted s.flt) ∧ (∀ e : Event, e ≠ .reset → event e s = .fault (.halted s.flt)) ∧
    tick s = (s, false) ∧ (∀ bytes, hostLoad bytes s = s) ∧ (∀ k, keyDown k s = s ∧ keyUp k s = s)

/-! ### Reset and load -/

/-- R36 (PC: D8, log 3; the font bytes are PRESUMED, log 2, and only zeros are stated; FLT: D7, log 15): what reset leaves. -/
def Obligations.ResetValues : Prop :=
  (∀ r, State.reset.reg r = 0) ∧ State.reset.i = 0 ∧ State.reset.pc = 0 ∧ State.reset.sp = 0 ∧
  (∀ k : Fin 16, State.reset.stack.get k = 0) ∧ State.reset.dt = 0 ∧ State.reset.st = 0 ∧
  (∀ k : Fin 16, State.reset.keys.get k = false) ∧ (∀ x y, State.reset.fb.pixel x y = false) ∧
  (∀ a, 80 ≤ a → State.reset.mem.read a = 0) ∧ State.reset.flt = ⟨.noFault, 0⟩

/-- R200, R179: the reset event is legal in every state, FAULTED included, and leaves every piece of the spec's state at its
reset value (the model's own counter of free values goes on, log 21). -/
def Obligations.ResetEventRestoresTheResetState : Prop :=
  ∀ s : State, ∃ t, event .reset s = .next t ∧ KeepsAllBut [.draws] State.reset t

/-- R203 (D19, log 17): a program that fits is copied to 512 onward and PC is 512; every other byte and all other state keep
their values. -/
def Obligations.LoadCopiesTheProgram : Prop :=
  ∀ (s : State) (bytes : List Byte), s.flt.cause = .noFault → s.mem.wf = true → bytes.length ≤ 3584 →
    ∃ t, event (.load bytes) s = .next t ∧ t.pc = 512 ∧
      (∀ a, t.mem.read a = if 512 ≤ a ∧ a < 512 + bytes.length then bytes.getD (a - 512) 0 else s.mem.read a) ∧
      KeepsAllBut [.pc, .mem] s t

/-- R204, R176 (code 6: D7, log 15): a program that does not fit raises LoadOverflow and nothing but FLT changes. -/
def Obligations.LoadOverflowChangesNothingElse : Prop :=
  ∀ (s : State) (bytes : List Byte), s.flt.cause = .noFault → 3584 < bytes.length →
    event (.load bytes) s = .next { s with flt := ⟨.loadOverflow, BitVec.ofNat 16 (512 + bytes.length)⟩ }

/-! ### Control flow -/

/-- R100: NOP does nothing, and the step's only effect is the PC advance. -/
def Obligations.NopOnlyAdvancesPc : Prop :=
  decodeWord 0x0000 = .ok .nop ∧ (∀ s : State, exec .nop s = .next s) ∧
  ∀ s : State, s.flt.cause = .noFault → s.pc.toNat ≤ 4094 →
    s.mem.read s.pc.toNat = 0 → s.mem.read (s.pc.toNat + 1) = 0 → step s = .next { s with pc := s.pc + 2 }

/-- R102: JP nnn. -/
def Obligations.JumpGoesToItsAddress : Prop :=
  ∀ (nnn : Addr12) (s : State), decodeWord (encodeNnn 0x1 nnn) = .ok (.jp nnn) ∧
    ∃ t, exec (.jp nnn) s = .next t ∧ t.pc.toNat = nnn.toNat ∧ KeepsAllBut [.pc] s t

/-- R104: JP V0, nnn goes to V0 + nnn, never wrapped. -/
def Obligations.JumpV0GoesToTheSum : Prop :=
  ∀ (nnn : Addr12) (s : State), decodeWord (encodeNnn 0xB nnn) = .ok (.jpV0 nnn) ∧
    ∃ t, exec (.jpV0 nnn) s = .next t ∧ t.pc.toNat = (s.reg 0).toNat + nnn.toNat ∧ KeepsAllBut [.pc] s t

/-- R103, R28, with room on the stack: the advanced PC is pushed at SP, SP goes up by 1, PC is nnn. -/
def Obligations.CallPushesAndJumps : Prop :=
  ∀ (nnn : Addr12) (s : State), s.sp.toNat < 16 →
    ∃ t, exec (.call nnn) s = .next t ∧ t.pc.toNat = nnn.toNat ∧ t.sp = s.sp + 1 ∧
      (∀ k : Fin 16, t.stack.get k = if k.val = s.sp.toNat then s.pc else s.stack.get k) ∧
      KeepsAllBut [.pc, .sp, .stack] s t

/-- R101, R28, with an entry on the stack: PC is the entry below SP, SP goes down by 1, no entry is cleared. -/
def Obligations.ReturnPopsIntoPc : Prop :=
  ∀ (s : State) (k : Fin 16), s.sp.toNat = k.val + 1 →
    ∃ t, exec .ret s = .next t ∧ t.pc = s.stack.get k ∧ t.sp.toNat = k.val ∧ KeepsAllBut [.pc, .sp] s t

/-- R28, R173, R174 (D3, log 13; state after the fault: D6, log 5): CALL with SP at 16 or above raises StackOverflow with SP
as info, RET with SP = 0 raises StackUnderflow with info 0; RET with SP above 16, which no run reaches, stops (log 13). -/
def Obligations.StackBoundsFault : Prop :=
  (∀ (nnn : Addr12) (s : State), 16 ≤ s.sp.toNat →
    ∃ t, exec (.call nnn) s = .next t ∧ FaultsWith .stackOverflow s.sp [] s t) ∧
  (∀ s : State, s.sp = 0 → ∃ t, exec .ret s = .next t ∧ FaultsWith .stackUnderflow 0 [] s t) ∧
  (∀ s : State, 16 < s.sp.toNat → exec .ret s = .fault (.stackIndexOutOfRange s.sp))

/-- R101: CALL nnn followed by RET, with anything in between that leaves SP and the entries below it as CALL left them,
leaves PC at the address after the CALL, and SP as before it. -/
def Obligations.CallThenReturnResumesAfterTheCall : Prop :=
  ∀ (nnn : Addr12) (s t u : State), s.sp.toNat < 16 → exec (.call nnn) s = .next t → u.sp = t.sp →
    (∀ k : Fin 16, k.val < t.sp.toNat → u.stack.get k = t.stack.get k) →
    ∃ r, exec .ret u = .next r ∧ r.pc = s.pc ∧ r.sp = s.sp ∧
      (∀ k : Fin 16, k.val < s.sp.toNat → r.stack.get k = s.stack.get k)

/-- R29: N pushes that fit, followed by N pops, give the values in reverse order and restore SP and the entries below it. -/
def Obligations.PushesThenPopsRestoreTheStack : Prop :=
  ∀ (vs : List Word16) (s : State), s.sp.toNat + vs.length ≤ 16 →
    ∃ t u, pushAll vs s = some t ∧ t.sp.toNat = s.sp.toNat + vs.length ∧
      popAll vs.length t = some (vs.reverse, u) ∧ u.sp = s.sp ∧
      (∀ k : Fin 16, k.val < s.sp.toNat → u.stack.get k = s.stack.get k) ∧ KeepsAllBut [.stack] s u

/-- R105, R106: SE Vx, nn and SNE Vx, nn. -/
def Obligations.SkipsOnImmediate : Prop :=
  ∀ (x : Nibble) (nn : Byte) (s : State),
    decodeWord (encodeXnn 0x3 x nn) = .ok (.seImm x nn) ∧ decodeWord (encodeXnn 0x4 x nn) = .ok (.sneImm x nn) ∧
    (∃ t, exec (.seImm x nn) s = .next t ∧ WritesPc (if s.reg x = nn then s.pc + 2 else s.pc) s t) ∧
    (∃ t, exec (.sneImm x nn) s = .next t ∧ WritesPc (if s.reg x = nn then s.pc else s.pc + 2) s t)

/-- R107, R108: SE Vx, Vy and SNE Vx, Vy, whatever d4 is (D12, log 7). -/
def Obligations.SkipsOnRegister : Prop :=
  ∀ (x y d4 : Nibble) (s : State),
    decodeWord (wordOfNibbles 0x5 x y d4) = .ok (.seReg x y d4) ∧
    decodeWord (wordOfNibbles 0x9 x y d4) = .ok (.sneReg x y d4) ∧
    (∃ t, exec (.seReg x y d4) s = .next t ∧ WritesPc (if s.reg x = s.reg y then s.pc + 2 else s.pc) s t) ∧
    (∃ t, exec (.sneReg x y d4) s = .next t ∧ WritesPc (if s.reg x = s.reg y then s.pc else s.pc + 2) s t)

/-- R98 (D24): a jump to itself leaves the whole state unchanged, step after step. -/
def Obligations.SelfJumpParks : Prop :=
  ∀ (s : State) (nnn : Addr12), s.flt.cause = .noFault → s.pc.toNat = nnn.toNat → nnn.toNat ≤ 4094 →
    wordOfBytes (s.mem.read s.pc.toNat) (s.mem.read (s.pc.toNat + 1)) = encodeNnn 0x1 nnn → step s = .next s

/-! ### Registers, arithmetic and logic -/

/-- R120, R121: LD Vx, nn and ADD Vx, nn; no flag. -/
def Obligations.LoadAndAddImmediate : Prop :=
  ∀ (x : Nibble) (nn : Byte) (s : State),
    decodeWord (encodeXnn 0x6 x nn) = .ok (.ldImm x nn) ∧ decodeWord (encodeXnn 0x7 x nn) = .ok (.addImm x nn) ∧
    (∃ t, exec (.ldImm x nn) s = .next t ∧ WritesReg x nn s t) ∧
    (∃ t, exec (.addImm x nn) s = .next t ∧
      WritesReg x (BitVec.ofNat 8 (((s.reg x).toNat + nn.toNat) % 256)) s t)

/-- R122 to R125: LD, OR, AND, XOR; no flag. -/
def Obligations.MoveAndLogic : Prop :=
  ∀ (x y : Nibble) (s : State),
    decodeWord (wordOfNibbles 0x8 x y 0x0) = .ok (.ldReg x y) ∧
    decodeWord (wordOfNibbles 0x8 x y 0x1) = .ok (.orReg x y) ∧
    decodeWord (wordOfNibbles 0x8 x y 0x2) = .ok (.andReg x y) ∧
    decodeWord (wordOfNibbles 0x8 x y 0x3) = .ok (.xorReg x y) ∧
    (∃ t, exec (.ldReg x y) s = .next t ∧ WritesReg x (s.reg y) s t) ∧
    (∃ t, exec (.orReg x y) s = .next t ∧ WritesReg x (s.reg x ||| s.reg y) s t) ∧
    (∃ t, exec (.andReg x y) s = .next t ∧ WritesReg x (s.reg x &&& s.reg y) s t) ∧
    (∃ t, exec (.xorReg x y) s = .next t ∧ WritesReg x (s.reg x ^^^ s.reg y) s t)

/-- R126: ADD Vx, Vy; VF is the carry. With x = 15 the flag wins (D13, log 10). -/
def Obligations.AddSetsCarry : Prop :=
  ∀ (x y : Nibble) (s : State), decodeWord (wordOfNibbles 0x8 x y 0x4) = .ok (.addReg x y) ∧
    ∃ t, exec (.addReg x y) s = .next t ∧
      WritesRegAndFlag x (BitVec.ofNat 8 (((s.reg x).toNat + (s.reg y).toNat) % 256))
        (if (s.reg x).toNat + (s.reg y).toNat > 255 then 1 else 0) s t

/-- R127, R129: SUB and SUBN; VF is NOT borrow. With x = 15 the flag wins (D13, log 10). -/
def Obligations.SubtractsSetNotBorrow : Prop :=
  ∀ (x y : Nibble) (s : State),
    decodeWord (wordOfNibbles 0x8 x y 0x5) = .ok (.subReg x y) ∧
    decodeWord (wordOfNibbles 0x8 x y 0x7) = .ok (.subnReg x y) ∧
    (∃ t, exec (.subReg x y) s = .next t ∧
      WritesRegAndFlag x
        (BitVec.ofNat 8 (if (s.reg x).toNat < (s.reg y).toNat then (s.reg x).toNat + 256 - (s.reg y).toNat
          else (s.reg x).toNat - (s.reg y).toNat))
        (if (s.reg x).toNat < (s.reg y).toNat then 0 else 1) s t) ∧
    (∃ t, exec (.subnReg x y) s = .next t ∧
      WritesRegAndFlag x
        (BitVec.ofNat 8 (if (s.reg y).toNat < (s.reg x).toNat then (s.reg y).toNat + 256 - (s.reg x).toNat
          else (s.reg y).toNat - (s.reg x).toNat))
        (if (s.reg y).toNat < (s.reg x).toNat then 0 else 1) s t)

/-- R128, R130: SHR and SHL by one bit, whatever y is; VF is the bit shifted out. With x = 15 the flag wins (D13, log 10). -/
def Obligations.ShiftsSetTheBitShiftedOut : Prop :=
  ∀ (x y : Nibble) (s : State),
    decodeWord (wordOfNibbles 0x8 x y 0x6) = .ok (.shr x y) ∧
    decodeWord (wordOfNibbles 0x8 x y 0xE) = .ok (.shl x y) ∧
    (∃ t, exec (.shr x y) s = .next t ∧
      WritesRegAndFlag x (BitVec.ofNat 8 ((s.reg x).toNat / 2)) (BitVec.ofNat 8 ((s.reg x).toNat % 2)) s t) ∧
    (∃ t, exec (.shl x y) s = .next t ∧
      WritesRegAndFlag x (BitVec.ofNat 8 ((s.reg x).toNat * 2 % 256)) (BitVec.ofNat 8 ((s.reg x).toNat / 128)) s t)

/-- R131 (D16, log 4): RND writes the drawn byte masked by nn, for every byte the host may give, and for some byte in the
model's own step; nothing else changes, VF only when x = 15. -/
def Obligations.RandomByteIsMasked : Prop :=
  ∀ (x : Nibble) (nn : Byte) (s : State), decodeWord (encodeXnn 0xC x nn) = .ok (.rnd x nn) ∧
    (∀ r : Byte, ∃ t, execWith r (.rnd x nn) s = .next t ∧
      (∀ q, t.reg q = if q = x then r &&& nn else s.reg q) ∧ KeepsAllBut [.v, .draws] s t) ∧
    (∃ (r : Byte) (t : State), exec (.rnd x nn) s = .next t ∧
      (∀ q, t.reg q = if q = x then r &&& nn else s.reg q) ∧ KeepsAllBut [.v, .draws] s t)

/-! ### Index register and memory -/

/-- R140, R141: LD I, nnn and ADD I, Vx, which wraps at 16 bits; no flag. -/
def Obligations.IndexLoadAndAdd : Prop :=
  ∀ s : State,
    (∀ nnn : Addr12, decodeWord (encodeNnn 0xA nnn) = .ok (.ldI nnn) ∧
      ∃ t, exec (.ldI nnn) s = .next t ∧ t.i.toNat = nnn.toNat ∧ KeepsAllBut [.i] s t) ∧
    (∀ x : Nibble, decodeWord (encodeXnn 0xF x 0x1E) = .ok (.addI x) ∧
      ∃ t, exec (.addI x) s = .next t ∧ t.i.toNat = (s.i.toNat + (s.reg x).toNat) % 65536 ∧ KeepsAllBut [.i] s t)

/-- R142 (D14, log 11, for Vx above 15): LD F, Vx gives 5 * Vx. -/
def Obligations.GlyphAddressIsFiveTimes : Prop :=
  ∀ (x : Nibble) (s : State), decodeWord (encodeXnn 0xF x 0x29) = .ok (.ldF x) ∧
    ∃ t, exec (.ldF x) s = .next t ∧ t.i.toNat = (s.reg x).toNat * 5 ∧ KeepsAllBut [.i] s t

/-- R143: LD B, Vx stores the three decimal digits at I, I + 1, I + 2 and leaves every other byte and all else as before.
The premise on memory is its canonical form, which every reachable state has. -/
def Obligations.BcdStoresThreeDigits : Prop :=
  ∀ (x : Nibble) (s : State), s.mem.wf = true → s.i.toNat ≤ 4093 →
    ∃ t, exec (.ldB x) s = .next t ∧
      (∀ a, t.mem.read a =
        if a = s.i.toNat then BitVec.ofNat 8 ((s.reg x).toNat / 100)
        else if a = s.i.toNat + 1 then BitVec.ofNat 8 ((s.reg x).toNat / 10 % 10)
        else if a = s.i.toNat + 2 then BitVec.ofNat 8 ((s.reg x).toNat % 10)
        else s.mem.read a) ∧
      KeepsAllBut [.mem] s t

/-- R144: LD [I], Vx stores V0 to Vx from I up and leaves every other byte, I and all else as before. -/
def Obligations.StoreRegistersAtI : Prop :=
  ∀ (x : Nibble) (s : State), s.mem.wf = true → s.i.toNat + x.toNat ≤ 4095 →
    ∃ t, exec (.ldMemVx x) s = .next t ∧
      (∀ k : Nibble, k.toNat ≤ x.toNat → t.mem.read (s.i.toNat + k.toNat) = s.reg k) ∧
      (∀ a, ¬ (s.i.toNat ≤ a ∧ a ≤ s.i.toNat + x.toNat) → t.mem.read a = s.mem.read a) ∧
      KeepsAllBut [.mem] s t

/-- R145: LD Vx, [I] loads V0 to Vx from I up and leaves the registers above Vx, I, memory and all else as before. -/
def Obligations.LoadRegistersFromI : Prop :=
  ∀ (x : Nibble) (s : State), s.i.toNat + x.toNat ≤ 4095 →
    ∃ t, exec (.ldVxMem x) s = .next t ∧
      (∀ k : Nibble, t.reg k = if k.toNat ≤ x.toNat then s.mem.read (s.i.toNat + k.toNat) else s.reg k) ∧
      KeepsAllBut [.v] s t

/-- R143 to R145, R172 (D2, D5, log 12; state after the fault: D6, log 5): a transfer that does not fit raises MemOutOfRange
with its first out-of-range address; each byte or register of the transfer that is in range has its old or its new value, and
everything outside the transfer its old one. -/
def Obligations.TransferBeyondMemoryFaults : Prop :=
  ∀ (x : Nibble) (s : State), s.mem.wf = true →
    (4093 < s.i.toNat →
      ∃ t, exec (.ldB x) s = .next t ∧
        FaultsWith .memOutOfRange (BitVec.ofNat 16 (firstBadAddress s.i.toNat)) [.mem] s t ∧
        (∀ a, t.mem.read a = s.mem.read a ∨ (s.i.toNat ≤ a ∧ a < 4096 ∧
          (a = s.i.toNat ∧ t.mem.read a = BitVec.ofNat 8 ((s.reg x).toNat / 100) ∨
           a = s.i.toNat + 1 ∧ t.mem.read a = BitVec.ofNat 8 ((s.reg x).toNat / 10 % 10))))) ∧
    (4095 < s.i.toNat + x.toNat →
      ∃ t, exec (.ldMemVx x) s = .next t ∧
        FaultsWith .memOutOfRange (BitVec.ofNat 16 (firstBadAddress s.i.toNat)) [.mem] s t ∧
        (∀ a, t.mem.read a = s.mem.read a ∨ (s.i.toNat ≤ a ∧ a < 4096 ∧
          ∃ k : Nibble, k.toNat ≤ x.toNat ∧ a = s.i.toNat + k.toNat ∧ t.mem.read a = s.reg k))) ∧
    (4095 < s.i.toNat + x.toNat →
      ∃ t, exec (.ldVxMem x) s = .next t ∧
        FaultsWith .memOutOfRange (BitVec.ofNat 16 (firstBadAddress s.i.toNat)) [.v] s t ∧
        (∀ k : Nibble, t.reg k = s.reg k ∨ (k.toNat ≤ x.toNat ∧ s.i.toNat + k.toNat < 4096 ∧
          t.reg k = s.mem.read (s.i.toNat + k.toNat))))

/-- R63: a store is seen by the next fetch with nothing in between: when Fx55 stores over the two bytes at PC, the word
fetched next is made of the registers stored there. -/
def Obligations.StoredBytesAreFetchedNext : Prop :=
  ∀ (x k k' : Nibble) (s : State), s.mem.wf = true → s.i.toNat + x.toNat ≤ 4095 →
    s.pc.toNat = s.i.toNat + k.toNat → k'.toNat = k.toNat + 1 → k'.toNat ≤ x.toNat →
    ∃ t, exec (.ldMemVx x) s = .next t ∧ t.fetch = .ok (wordOfBytes (s.reg k) (s.reg k'))

/-- R50, R56: two memories in canonical form that read the same at every address are the same data. -/
def Obligations.CanonicalMemoriesWithEqualReadsAreEqual : Prop :=
  ∀ m m' : Memory, m.wf = true → m'.wf = true → (∀ a, m.read a = m'.read a) → m = m'

/-! ### Display -/

/-- R150: CLS unsets every pixel and changes nothing else. -/
def Obligations.ClearScreenUnsetsEveryPixel : Prop :=
  decodeWord 0x00E0 = .ok .cls ∧ ∀ s : State,
    ∃ t, exec .cls s = .next t ∧ (∀ x y, t.fb.pixel x y = false) ∧ KeepsAllBut [.fb] s t

/-- R151, R152 (bit 7 leftmost: D10, log 9): the blitter is one array operation: a pixel is inverted iff the sprite mask has
it, VF is 1 iff the mask meets a set pixel, and nothing else changes. n = 0 needs no address in range. -/
def Obligations.DrawXorsTheSpriteMask : Prop :=
  ∀ (x y n : Nibble) (s : State), n.toNat = 0 ∨ s.i.toNat + n.toNat ≤ 4096 →
    ∃ t, exec (.drw x y n) s = .next t ∧
      (∀ px py, (SpriteMask s x y n px py → t.fb.pixel px py = !s.fb.pixel px py) ∧
        (¬ SpriteMask s x y n px py → t.fb.pixel px py = s.fb.pixel px py)) ∧
      ((∃ px py, SpriteMask s x y n px py ∧ s.fb.pixel px py = true) → t.reg 0xF = 1) ∧
      ((¬ ∃ px py, SpriteMask s x y n px py ∧ s.fb.pixel px py = true) → t.reg 0xF = 0) ∧
      (∀ r, r ≠ 0xF → t.reg r = s.reg r) ∧ KeepsAllBut [.v, .fb] s t

/-- R152 (a), (b): drawing the same sprite at the same place again restores every pixel, and the second call's flag is 1 iff
the first call turned on at least one pixel. -/
def Obligations.SecondIdenticalDrawRestores : Prop :=
  ∀ (x y n : Nibble) (s t u : State), n.toNat = 0 ∨ s.i.toNat + n.toNat ≤ 4096 → exec (.drw x y n) s = .next t →
    u.reg x = s.reg x → u.reg y = s.reg y → u.i = s.i → (∀ a, u.mem.read a = s.mem.read a) →
    (∀ px py, u.fb.pixel px py = t.fb.pixel px py) →
    ∃ v, exec (.drw x y n) u = .next v ∧ (∀ px py, v.fb.pixel px py = s.fb.pixel px py) ∧
      ((∃ px py, s.fb.pixel px py = false ∧ t.fb.pixel px py = true) → v.reg 0xF = 1) ∧
      ((¬ ∃ px py, s.fb.pixel px py = false ∧ t.fb.pixel px py = true) → v.reg 0xF = 0)

/-- R151, R172 (D2, log 12; state after the fault: D6, log 5): a sprite that does not fit in memory raises MemOutOfRange with
the framebuffer, VF and all else untouched. -/
def Obligations.DrawBeyondMemoryFaults : Prop :=
  ∀ (x y n : Nibble) (s : State), n.toNat ≠ 0 → 4096 < s.i.toNat + n.toNat →
    ∃ t, exec (.drw x y n) s = .next t ∧
      FaultsWith .memOutOfRange (BitVec.ofNat 16 (firstBadAddress s.i.toNat)) [] s t

/-! ### Keypad and timers -/

/-- R160, R161: SKP and SKNP for a key index in 0 to 15. -/
def Obligations.SkipsOnKey : Prop :=
  ∀ (x : Nibble) (k : Fin 16) (s : State), (s.reg x).toNat = k.val →
    (∃ t, exec (.skp x) s = .next t ∧ WritesPc (if s.keys.get k = true then s.pc + 2 else s.pc) s t) ∧
    (∃ t, exec (.sknp x) s = .next t ∧ WritesPc (if s.keys.get k = true then s.pc else s.pc + 2) s t)

/-- R160, R161, R175 (D4, log 14; state after the fault: D6, log 5): a key index above 15 raises KeyIndexOutOfRange with Vx as
info. -/
def Obligations.KeyIndexAboveFifteenFaults : Prop :=
  ∀ (x : Nibble) (s : State), 15 < (s.reg x).toNat →
    (∃ t, exec (.skp x) s = .next t ∧ FaultsWith .keyIndexOutOfRange (BitVec.ofNat 16 (s.reg x).toNat) [] s t) ∧
    (∃ t, exec (.sknp x) s = .next t ∧ FaultsWith .keyIndexOutOfRange (BitVec.ofNat 16 (s.reg x).toNat) [] s t)

/-- R162 (lowest index: D11, log 8): with a key down, LD Vx, K stores the lowest index that is down, and PC goes on. -/
def Obligations.KeyWaitStoresTheLowestKeyDown : Prop :=
  ∀ (x : Nibble) (k : Fin 16) (s : State), s.keys.get k = true → (∀ j, j < k → s.keys.get j = false) →
    decodeWord (encodeXnn 0xF x 0x0A) = .ok (.ldVxK x) ∧
    ∃ t, exec (.ldVxK x) s = .next t ∧ WritesReg x (BitVec.ofNat 8 k.val) s t

/-- R162: with no key down, LD Vx, K takes PC back by 2, so that the step leaves the whole state as it was. -/
def Obligations.KeyWaitWithNoKeyRepeats : Prop :=
  ∀ (x : Nibble) (s : State), (∀ k, s.keys.get k = false) →
    (∃ t, exec (.ldVxK x) s = .next t ∧ WritesPc (s.pc - 2) s t) ∧
    (s.flt.cause = .noFault → s.pc.toNat ≤ 4094 →
      wordOfBytes (s.mem.read s.pc.toNat) (s.mem.read (s.pc.toNat + 1)) = encodeXnn 0xF x 0x0A → step s = .next s)

/-- R163 to R165 (buzz: D17, log 18; the premise not FAULTED: D6, log 6): LD Vx, DT; LD DT, Vx; LD ST, Vx. With ticks right
after the write and no step between them, DT counts down from the value written with each tick, and ST = v makes exactly the
next v ticks report buzz. What a step between the ticks may do to the timers is `StepLeavesKeypadAndTimers`. -/
def Obligations.TimerMoves : Prop :=
  ∀ (x : Nibble) (s : State),
    decodeWord (encodeXnn 0xF x 0x07) = .ok (.ldVxDt x) ∧ decodeWord (encodeXnn 0xF x 0x15) = .ok (.ldDtVx x) ∧
    decodeWord (encodeXnn 0xF x 0x18) = .ok (.ldStVx x) ∧
    (∃ t, exec (.ldVxDt x) s = .next t ∧ WritesReg x s.dt s t) ∧
    (∃ t, exec (.ldDtVx x) s = .next t ∧ t.dt = s.reg x ∧ KeepsAllBut [.dt] s t ∧
      (s.flt.cause = .noFault → ∀ n, (tickTimes n t).dt.toNat = (s.reg x).toNat - n)) ∧
    (∃ t, exec (.ldStVx x) s = .next t ∧ t.st = s.reg x ∧ KeepsAllBut [.st] s t ∧
      (s.flt.cause = .noFault → ∀ n, (tick (tickTimes n t)).2 = decide (n < (s.reg x).toNat)))

/-- R183, R184, in a machine that is not FAULTED: a tick counts both timers down by 1 and not below 0, reports whether ST was
above 0 at its start, and changes nothing else. -/
def Obligations.TickCountsDown : Prop :=
  ∀ s : State, s.flt.cause = .noFault →
    event .tick s = .next (tick s).1 ∧ (tick s).1.dt.toNat = s.dt.toNat - 1 ∧ (tick s).1.st.toNat = s.st.toNat - 1 ∧
    (tick s).2 = decide (0 < s.st.toNat) ∧ KeepsAllBut [.dt, .st] s (tick s).1

/-- R183, R184 (buzz: D17, log 18; no step between the ticks): n ticks later a timer holds its value less n, or 0, and the tick after them reports buzz iff ST was above n:
ST = v sounds on each of the next v ticks. -/
def Obligations.TimersAfterManyTicks : Prop :=
  ∀ (n : Nat) (s : State), s.flt.cause = .noFault →
    (tickTimes n s).dt.toNat = s.dt.toNat - n ∧ (tickTimes n s).st.toNat = s.st.toNat - n ∧
    (tick (tickTimes n s)).2 = decide (n < s.st.toNat) ∧ KeepsAllBut [.dt, .st] s (tickTimes n s)

/-- R185 (D23, log 19), in a machine that is not FAULTED: a key event sets one key's level and changes nothing else. -/
def Obligations.KeyEventsSetOneKey : Prop :=
  ∀ (k : Nibble) (s : State), s.flt.cause = .noFault →
    (∃ t, event (.keyDown k) s = .next t ∧
      (∀ j : Fin 16, t.keys.get j = if j.val = k.toNat then true else s.keys.get j) ∧ KeepsAllBut [.keys] s t) ∧
    (∃ t, event (.keyUp k) s = .next t ∧
      (∀ j : Fin 16, t.keys.get j = if j.val = k.toNat then false else s.keys.get j) ∧ KeepsAllBut [.keys] s t)

/-! ### The whole machine -/

/-- R25, R29, R170: the invariant holds at reset. -/
def Obligations.InvariantAtReset : Prop := State.reset.Inv

/-- R25, R29: every step keeps the invariant: memory stays canonical, SP in 0 to 16, PC at most 0x10FE, every stack entry at
most 4096. -/
def Obligations.StepKeepsTheInvariant : Prop :=
  ∀ s t : State, s.Inv → step s = .next t → t.Inv

/-- R25, R29: every event of the host keeps the invariant, whatever byte a step is given. -/
def Obligations.EventsKeepTheInvariant : Prop :=
  ∀ (e : Event) (s t : State), s.Inv → event e s = .next t → t.Inv

/-- R25, R29, R177 (D3, log 13; D6, log 5): from every state that meets the invariant and is not FAULTED, reached by a run or
not, a step answers a next state, and that state meets the invariant; no stop of the model lies behind it. -/
def Obligations.LiveStepsAnswerAStateThatMeetsTheInvariant : Prop :=
  ∀ s : State, s.Inv → s.flt.cause = .noFault → ∃ t, step s = .next t ∧ t.Inv

/-- R25, R29: every state that any interleaving of events reaches from reset meets the invariant; in a reachable state that is
not FAULTED no step stops the machine without a next state. -/
def Obligations.ReachableStatesAreSafe : Prop :=
  ∀ s : State, Reachable s → s.Inv ∧ (s.flt.cause = .noFault → ∃ t, step s = .next t)

/-- R100 to R165: an instruction that raises no fault changes only the parts of the state its rule names. -/
def Obligations.InstructionsChangeOnlyTheirParts : Prop :=
  ∀ (i : Instr) (s t : State), s.flt.cause = .noFault → exec i s = .next t → t.flt.cause = .noFault →
    KeepsAllBut (changedParts i) s t

/-- R20, R21: an instruction leaves every register unchanged but its destination and, for the six flag-producing
instructions, VF. -/
def Obligations.RegistersOutsideTheDestinationKeep : Prop :=
  ∀ (i : Instr) (r : Nibble) (s t : State), exec i s = .next t → writesRegister i r = false → t.reg r = s.reg r

/-- R32, R183: a step never changes the keypad, and it changes DT only by Fx15 and ST only by Fx18. -/
def Obligations.StepLeavesKeypadAndTimers : Prop :=
  ∀ s t : State, step s = .next t →
    (∀ k : Fin 16, t.keys.get k = s.keys.get k) ∧
    (t.dt = s.dt ∨ ∃ x : Nibble, s.fetch = .ok (encodeXnn 0xF x 0x15) ∧ t.dt = s.reg x) ∧
    (t.st = s.st ∨ ∃ x : Nibble, s.fetch = .ok (encodeXnn 0xF x 0x18) ∧ t.st = s.reg x)

/-- R31, R182: no instruction reads ST: two states that differ in ST alone step to outcomes that differ in ST alone. -/
def Obligations.SoundTimerIsNotObserved : Prop :=
  ∀ (s : State) (b : Byte),
    mapNext (fun t => { t with st := 0 }) (step { s with st := b }) = mapNext (fun t => { t with st := 0 }) (step s)

/-- R27: no program can observe the stack entries at SP and above: two states that differ there alone step to outcomes that
differ there alone. -/
def Obligations.StaleStackEntriesAreNotObserved : Prop :=
  ∀ s t : State, SameButStaleStack s t → OutcomesAgree SameButStaleStack (step s) (step t)
end

