-- ==== Sys2Proof/Laws/Decode.lean ====
section
/-!
SUPPORT. The fields of a word and the words of the encoder as numbers, and that each field of an encoded word is the field
that was put in (30_encoding.md R71). Proofs about encodings cite these and close with omega.
-/
namespace Sys2Proof

variable (w : Word16) (a b c d x : Nibble) (nn hi lo : Byte) (nnn : Addr12)

theorem nib1_toNat : (nib1 w).toNat = w.toNat / 4096 := by
  have := w.isLt
  simp only [nib1, BitVec.extractLsb'_toNat, Nat.shiftRight_eq_div_pow]
  omega

theorem nib2_toNat : (nib2 w).toNat = w.toNat / 256 % 16 := by
  simp [nib2, BitVec.extractLsb'_toNat, Nat.shiftRight_eq_div_pow]

theorem nib3_toNat : (nib3 w).toNat = w.toNat / 16 % 16 := by
  simp [nib3, BitVec.extractLsb'_toNat, Nat.shiftRight_eq_div_pow]

theorem nib4_toNat : (nib4 w).toNat = w.toNat % 16 := by
  simp [nib4, BitVec.extractLsb'_toNat]

theorem fieldNn_toNat : (fieldNn w).toNat = w.toNat % 256 := by
  simp [fieldNn, BitVec.extractLsb'_toNat]

theorem fieldNnn_toNat : (fieldNnn w).toNat = w.toNat % 4096 := by
  simp [fieldNnn, BitVec.extractLsb'_toNat]

/-- The value of an append: the high part shifted past the low part. -/
theorem toNat_append_eq {m n : Nat} (p : BitVec m) (q : BitVec n) :
    (p ++ q).toNat = p.toNat * 2 ^ n + q.toNat := by
  rw [BitVec.toNat_append, Nat.shiftLeft_eq, mul_comm, Nat.two_pow_add_eq_or_of_lt q.isLt]

theorem wordOfBytes_toNat : (wordOfBytes hi lo).toNat = hi.toNat * 256 + lo.toNat :=
  toNat_append_eq hi lo

theorem wordOfNibbles_toNat :
    (wordOfNibbles a b c d).toNat = a.toNat * 4096 + b.toNat * 256 + c.toNat * 16 + d.toNat := by
  have h : (wordOfNibbles a b c d).toNat = (a ++ b).toNat * 2 ^ (4 + 4) + (c ++ d).toNat :=
    toNat_append_eq (a ++ b) (c ++ d)
  rw [h, toNat_append_eq a b, toNat_append_eq c d]
  omega

theorem encodeNnn_toNat : (encodeNnn a nnn).toNat = a.toNat * 4096 + nnn.toNat :=
  toNat_append_eq a nnn

theorem encodeXnn_toNat : (encodeXnn a x nn).toNat = a.toNat * 4096 + x.toNat * 256 + nn.toNat := by
  have h : (encodeXnn a x nn).toNat = (a ++ x).toNat * 2 ^ 8 + nn.toNat := toNat_append_eq (a ++ x) nn
  rw [h, toNat_append_eq a x]
  omega

@[simp] theorem nib1_wordOfNibbles : nib1 (wordOfNibbles a b c d) = a := by
  apply BitVec.eq_of_toNat_eq; rw [nib1_toNat, wordOfNibbles_toNat]; omega

@[simp] theorem nib2_wordOfNibbles : nib2 (wordOfNibbles a b c d) = b := by
  apply BitVec.eq_of_toNat_eq; rw [nib2_toNat, wordOfNibbles_toNat]; omega

@[simp] theorem nib3_wordOfNibbles : nib3 (wordOfNibbles a b c d) = c := by
  apply BitVec.eq_of_toNat_eq; rw [nib3_toNat, wordOfNibbles_toNat]; omega

@[simp] theorem nib4_wordOfNibbles : nib4 (wordOfNibbles a b c d) = d := by
  apply BitVec.eq_of_toNat_eq; rw [nib4_toNat, wordOfNibbles_toNat]; omega

@[simp] theorem nib1_encodeNnn : nib1 (encodeNnn a nnn) = a := by
  apply BitVec.eq_of_toNat_eq; rw [nib1_toNat, encodeNnn_toNat]; omega

@[simp] theorem fieldNnn_encodeNnn : fieldNnn (encodeNnn a nnn) = nnn := by
  apply BitVec.eq_of_toNat_eq; rw [fieldNnn_toNat, encodeNnn_toNat]; omega

@[simp] theorem nib1_encodeXnn : nib1 (encodeXnn a x nn) = a := by
  apply BitVec.eq_of_toNat_eq; rw [nib1_toNat, encodeXnn_toNat]; omega

@[simp] theorem nib2_encodeXnn : nib2 (encodeXnn a x nn) = x := by
  apply BitVec.eq_of_toNat_eq; rw [nib2_toNat, encodeXnn_toNat]; omega

@[simp] theorem fieldNn_encodeXnn : fieldNn (encodeXnn a x nn) = nn := by
  apply BitVec.eq_of_toNat_eq; rw [fieldNn_toNat, encodeXnn_toNat]; omega

/-! ### Masks, field by field -/

theorem encodeNnn_and (a' : Nibble) (nnn' : Addr12) :
    encodeNnn a nnn &&& encodeNnn a' nnn' = encodeNnn (a &&& a') (nnn &&& nnn') := BitVec.and_append

theorem encodeXnn_and (a' x' : Nibble) (nn' : Byte) :
    encodeXnn a x nn &&& encodeXnn a' x' nn' = encodeXnn (a &&& a') (x &&& x') (nn &&& nn') := by
  have h : encodeXnn a x nn &&& encodeXnn a' x' nn' = ((a ++ x) &&& (a' ++ x')) ++ (nn &&& nn') :=
    BitVec.and_append
  rw [h, BitVec.and_append]
  rfl

theorem wordOfNibbles_and (a' b' c' d' : Nibble) :
    wordOfNibbles a b c d &&& wordOfNibbles a' b' c' d' =
      wordOfNibbles (a &&& a') (b &&& b') (c &&& c') (d &&& d') := by
  have h : wordOfNibbles a b c d &&& wordOfNibbles a' b' c' d' =
      ((a ++ b) &&& (a' ++ b')) ++ ((c ++ d) &&& (c' ++ d')) := BitVec.and_append
  rw [h, BitVec.and_append, BitVec.and_append]
  rfl

end Sys2Proof
end

