-- ==== Sys2Proof/Laws/State.lean ====
section
/-!
SUPPORT. One lemma per field per named update of the state, so that no later proof unfolds a record update.
-/
namespace Sys2Proof.Machine

variable (s : State) (x : Nibble) (b f : Byte) (p : Word16) (c : Cause) (n : Nat)

/-! ### `setReg` -/

@[simp] theorem setReg_i : (s.setReg x b).i = s.i := rfl
@[simp] theorem setReg_pc : (s.setReg x b).pc = s.pc := rfl
@[simp] theorem setReg_sp : (s.setReg x b).sp = s.sp := rfl
@[simp] theorem setReg_stack : (s.setReg x b).stack = s.stack := rfl
@[simp] theorem setReg_dt : (s.setReg x b).dt = s.dt := rfl
@[simp] theorem setReg_st : (s.setReg x b).st = s.st := rfl
@[simp] theorem setReg_keys : (s.setReg x b).keys = s.keys := rfl
@[simp] theorem setReg_fb : (s.setReg x b).fb = s.fb := rfl
@[simp] theorem setReg_mem : (s.setReg x b).mem = s.mem := rfl
@[simp] theorem setReg_flt : (s.setReg x b).flt = s.flt := rfl
@[simp] theorem setReg_draws : (s.setReg x b).draws = s.draws := rfl

/-- A register reads as the value written last to it (10_state.md R20). -/
@[simp] theorem reg_setReg (r : Nibble) : (s.setReg x b).reg r = if r = x then b else s.reg r := by
  have hx : x.toFin.val = r.toFin.val ↔ r = x :=
    ⟨fun h => (BitVec.eq_of_toNat_eq h).symm, fun h => by rw [h]⟩
  simp only [State.setReg, State.reg, Vector.get_eq_getElem, Vector.getElem_set, hx]

/-! ### `setRegFlag` -/

@[simp] theorem setRegFlag_i : (s.setRegFlag x b f).i = s.i := rfl
@[simp] theorem setRegFlag_pc : (s.setRegFlag x b f).pc = s.pc := rfl
@[simp] theorem setRegFlag_sp : (s.setRegFlag x b f).sp = s.sp := rfl
@[simp] theorem setRegFlag_stack : (s.setRegFlag x b f).stack = s.stack := rfl
@[simp] theorem setRegFlag_dt : (s.setRegFlag x b f).dt = s.dt := rfl
@[simp] theorem setRegFlag_st : (s.setRegFlag x b f).st = s.st := rfl
@[simp] theorem setRegFlag_keys : (s.setRegFlag x b f).keys = s.keys := rfl
@[simp] theorem setRegFlag_fb : (s.setRegFlag x b f).fb = s.fb := rfl
@[simp] theorem setRegFlag_mem : (s.setRegFlag x b f).mem = s.mem := rfl
@[simp] theorem setRegFlag_flt : (s.setRegFlag x b f).flt = s.flt := rfl
@[simp] theorem setRegFlag_draws : (s.setRegFlag x b f).draws = s.draws := rfl

/-- The flag is written last: VF reads as the flag whatever x is (42_alu.md R133). -/
@[simp] theorem reg_setRegFlag (r : Nibble) :
    (s.setRegFlag x b f).reg r = if r = vf then f else if r = x then b else s.reg r := by
  simp [State.setRegFlag]

/-! ### `setPc`, `advance`, `rewind`, `skipIf` -/

@[simp] theorem setPc_pc : (s.setPc p).pc = p := rfl
@[simp] theorem setPc_v : (s.setPc p).v = s.v := rfl
@[simp] theorem setPc_reg (r : Nibble) : (s.setPc p).reg r = s.reg r := rfl
@[simp] theorem setPc_i : (s.setPc p).i = s.i := rfl
@[simp] theorem setPc_sp : (s.setPc p).sp = s.sp := rfl
@[simp] theorem setPc_stack : (s.setPc p).stack = s.stack := rfl
@[simp] theorem setPc_dt : (s.setPc p).dt = s.dt := rfl
@[simp] theorem setPc_st : (s.setPc p).st = s.st := rfl
@[simp] theorem setPc_keys : (s.setPc p).keys = s.keys := rfl
@[simp] theorem setPc_fb : (s.setPc p).fb = s.fb := rfl
@[simp] theorem setPc_mem : (s.setPc p).mem = s.mem := rfl
@[simp] theorem setPc_flt : (s.setPc p).flt = s.flt := rfl
@[simp] theorem setPc_draws : (s.setPc p).draws = s.draws := rfl

/-- The advance is a write of PC (40_step_cycle.md R92). -/
theorem advance_eq : s.advance = s.setPc (s.pc + 2) := rfl

/-- The rewind is a write of PC (45_keypad_timers.md R162). -/
theorem rewind_eq : s.rewind = s.setPc (s.pc - 2) := rfl

/-- A skip is a write of PC (41_control_flow.md R109). -/
theorem skipIf_eq (d : Bool) : s.skipIf d = s.setPc (if d then s.pc + 2 else s.pc) := by
  cases d <;> rfl

@[simp] theorem advance_pc : s.advance.pc = s.pc + 2 := rfl
@[simp] theorem advance_v : s.advance.v = s.v := rfl
@[simp] theorem advance_reg (r : Nibble) : s.advance.reg r = s.reg r := rfl
@[simp] theorem advance_i : s.advance.i = s.i := rfl
@[simp] theorem advance_sp : s.advance.sp = s.sp := rfl
@[simp] theorem advance_stack : s.advance.stack = s.stack := rfl
@[simp] theorem advance_dt : s.advance.dt = s.dt := rfl
@[simp] theorem advance_st : s.advance.st = s.st := rfl
@[simp] theorem advance_keys : s.advance.keys = s.keys := rfl
@[simp] theorem advance_fb : s.advance.fb = s.fb := rfl
@[simp] theorem advance_mem : s.advance.mem = s.mem := rfl
@[simp] theorem advance_flt : s.advance.flt = s.flt := rfl
@[simp] theorem advance_draws : s.advance.draws = s.draws := rfl

/-- Going back after the advance leaves the state as it was (R162). -/
@[simp] theorem rewind_advance : s.advance.rewind = s := by
  simp [State.advance, State.rewind, State.setPc]

/-! ### `raise` and `raiseInStep` -/

@[simp] theorem raise_flt : (raise c n s).flt = ⟨c, BitVec.ofNat 16 n⟩ := rfl
@[simp] theorem raise_v : (raise c n s).v = s.v := rfl
@[simp] theorem raise_reg (r : Nibble) : (raise c n s).reg r = s.reg r := rfl
@[simp] theorem raise_i : (raise c n s).i = s.i := rfl
@[simp] theorem raise_pc : (raise c n s).pc = s.pc := rfl
@[simp] theorem raise_sp : (raise c n s).sp = s.sp := rfl
@[simp] theorem raise_stack : (raise c n s).stack = s.stack := rfl
@[simp] theorem raise_dt : (raise c n s).dt = s.dt := rfl
@[simp] theorem raise_st : (raise c n s).st = s.st := rfl
@[simp] theorem raise_keys : (raise c n s).keys = s.keys := rfl
@[simp] theorem raise_fb : (raise c n s).fb = s.fb := rfl
@[simp] theorem raise_mem : (raise c n s).mem = s.mem := rfl
@[simp] theorem raise_draws : (raise c n s).draws = s.draws := rfl

/-- Everything a fault raised by an executing instruction does: FLT, PC at a + 2 or a, one free value taken (60_exceptions.md
R177, R178). -/
theorem raiseInStep_eq :
    raiseInStep c n s = { s with
      flt := ⟨c, BitVec.ofNat 16 n⟩
      pc := if Config.faultPcAdvanced s.draws then s.pc else s.pc - 2
      draws := s.draws + 1 } := by
  unfold raiseInStep
  cases Config.faultPcAdvanced s.draws <;> rfl

@[simp] theorem raiseInStep_flt : (raiseInStep c n s).flt = ⟨c, BitVec.ofNat 16 n⟩ := by
  simp [raiseInStep_eq]
@[simp] theorem raiseInStep_v : (raiseInStep c n s).v = s.v := by simp [raiseInStep_eq]
@[simp] theorem raiseInStep_reg (r : Nibble) : (raiseInStep c n s).reg r = s.reg r := by
  simp [raiseInStep_eq, State.reg]
@[simp] theorem raiseInStep_i : (raiseInStep c n s).i = s.i := by simp [raiseInStep_eq]
@[simp] theorem raiseInStep_sp : (raiseInStep c n s).sp = s.sp := by simp [raiseInStep_eq]
@[simp] theorem raiseInStep_stack : (raiseInStep c n s).stack = s.stack := by simp [raiseInStep_eq]
@[simp] theorem raiseInStep_dt : (raiseInStep c n s).dt = s.dt := by simp [raiseInStep_eq]
@[simp] theorem raiseInStep_st : (raiseInStep c n s).st = s.st := by simp [raiseInStep_eq]
@[simp] theorem raiseInStep_keys : (raiseInStep c n s).keys = s.keys := by simp [raiseInStep_eq]
@[simp] theorem raiseInStep_fb : (raiseInStep c n s).fb = s.fb := by simp [raiseInStep_eq]
@[simp] theorem raiseInStep_mem : (raiseInStep c n s).mem = s.mem := by simp [raiseInStep_eq]
@[simp] theorem raiseInStep_draws : (raiseInStep c n s).draws = s.draws + 1 := by
  simp [raiseInStep_eq]

/-- PC after a fault raised by an executing instruction is a + 2 or a (R178). -/
theorem raiseInStep_pc : (raiseInStep c n s).pc = s.pc ∨ (raiseInStep c n s).pc = s.pc - 2 := by
  rw [raiseInStep_eq]
  cases Config.faultPcAdvanced s.draws <;> simp

/-! ### `pushed` -/

@[simp] theorem pushed_v : (s.pushed p).v = s.v := rfl
@[simp] theorem pushed_reg (r : Nibble) : (s.pushed p).reg r = s.reg r := rfl
@[simp] theorem pushed_i : (s.pushed p).i = s.i := rfl
@[simp] theorem pushed_pc : (s.pushed p).pc = s.pc := rfl
@[simp] theorem pushed_sp : (s.pushed p).sp = s.sp + 1 := rfl
@[simp] theorem pushed_dt : (s.pushed p).dt = s.dt := rfl
@[simp] theorem pushed_st : (s.pushed p).st = s.st := rfl
@[simp] theorem pushed_keys : (s.pushed p).keys = s.keys := rfl
@[simp] theorem pushed_fb : (s.pushed p).fb = s.fb := rfl
@[simp] theorem pushed_mem : (s.pushed p).mem = s.mem := rfl
@[simp] theorem pushed_flt : (s.pushed p).flt = s.flt := rfl
@[simp] theorem pushed_draws : (s.pushed p).draws = s.draws := rfl

/-- The entry at SP is the value pushed, every other entry as before (10_state.md R28). -/
theorem pushed_stack_get (k : Fin 16) :
    (s.pushed p).stack.get k = if k.val = s.sp.toNat then p else s.stack.get k := by
  simp only [State.pushed, Vector.get_eq_getElem, Vector.getElem_setIfInBounds]
  simp [eq_comm]

/-! ### Frames -/

/-- A frame from its parts: one goal per part that is not in `changed`. -/
theorem keepsAllBut_intro (l : List Part) (t : State) (h : ∀ q, q ∉ l → q.same s t) :
    KeepsAllBut l s t := h

/-- Every state keeps all of itself. -/
theorem keepsAllBut_refl (l : List Part) : KeepsAllBut l s s := by
  intro q _
  cases q <;> simp [Part.same]

end Sys2Proof.Machine
end

