-- ==== Sys2Proof/Laws/Memory.lean ====
section
/-!
SUPPORT. The laws of memory: a read after a write, the canonical form kept by every memory operation, and what the
multi-byte transfers do.
-/
namespace Sys2Proof.Machine

/-! ### The canonical form -/

theorem wfFrom_cons (lo k : Nat) (b : Byte) (m : Memory) :
    Memory.wfFrom lo ((k, b) :: m) = true ↔
      lo ≤ k ∧ k < Config.memSize ∧ b ≠ initByte k ∧ Memory.wfFrom (k + 1) m = true := by
  simp [Memory.wfFrom, and_assoc]

theorem wfFrom_mono {lo lo' : Nat} (h : lo' ≤ lo) {m : Memory} (hm : Memory.wfFrom lo m = true) :
    Memory.wfFrom lo' m = true := by
  cases m with
  | nil => rfl
  | cons c m =>
    obtain ⟨k, b⟩ := c
    rw [wfFrom_cons] at hm ⊢
    exact ⟨by omega, hm.2⟩

/-- Below the first cell every address reads as the reset contents. -/
theorem read_below {lo : Nat} {m : Memory} (hm : Memory.wfFrom lo m = true) {a : Nat} (ha : a < lo) :
    m.read a = initByte a := by
  induction m generalizing lo with
  | nil => rfl
  | cons c m ih =>
    obtain ⟨k, b⟩ := c
    rw [wfFrom_cons] at hm
    have hne : a ≠ k := by omega
    simp only [Memory.read, hne, if_false]
    exact ih hm.2.2.2 (by omega)

theorem write_wfFrom {lo : Nat} {m : Memory} (hm : Memory.wfFrom lo m = true) {a : Nat} (hlo : lo ≤ a)
    (ha : a < Config.memSize) (v : Byte) : Memory.wfFrom lo (m.write a v) = true := by
  induction m generalizing lo with
  | nil =>
    unfold Memory.write
    split
    · rfl
    · rw [wfFrom_cons]; exact ⟨hlo, ha, ‹_›, rfl⟩
  | cons c m ih =>
    obtain ⟨k, b⟩ := c
    have hm' := hm
    rw [wfFrom_cons] at hm'
    unfold Memory.write
    split
    · split
      · exact hm
      · rw [wfFrom_cons]
        exact ⟨hlo, ha, ‹_›, by rw [wfFrom_cons]; exact ⟨by omega, hm'.2⟩⟩
    · split
      · subst a
        split
        · exact wfFrom_mono (by omega) hm'.2.2.2
        · rw [wfFrom_cons]; exact ⟨hlo, ha, ‹_›, hm'.2.2.2⟩
      · rw [wfFrom_cons]
        exact ⟨hm'.1, hm'.2.1, hm'.2.2.1, ih hm'.2.2.2 (by omega)⟩

/-- A write keeps the canonical form. -/
theorem write_wf {m : Memory} (hm : m.wf = true) {a : Nat} (ha : a < Config.memSize) (v : Byte) :
    (m.write a v).wf = true := write_wfFrom hm (Nat.zero_le a) ha v

theorem read_write_from {lo : Nat} {m : Memory} (hm : Memory.wfFrom lo m = true) (a : Nat) (v : Byte)
    (c : Nat) : (m.write a v).read c = if c = a then v else m.read c := by
  induction m generalizing lo with
  | nil =>
    unfold Memory.write
    split
    · split <;> simp_all [Memory.read]
    · simp [Memory.read]
  | cons d m ih =>
    obtain ⟨k, b⟩ := d
    have hm' := hm
    rw [wfFrom_cons] at hm'
    unfold Memory.write
    split
    · split
      · split
        · subst c; subst v
          exact read_below (lo := k) (by rw [wfFrom_cons]; exact ⟨le_refl k, hm'.2⟩) ‹_›
        · rfl
      · simp [Memory.read]
    · split
      · subst a
        split
        · split
          · subst c; subst v
            exact read_below hm'.2.2.2 (by omega)
          · rename_i hck
            simp [Memory.read, hck]
        · simp only [Memory.read]
          split <;> rfl
      · simp only [Memory.read, ih hm'.2.2.2]
        split <;> split <;> first | rfl | omega

/-- A read after a write: the value written at the address written, every other byte as before (20_memory.md R56). -/
theorem read_write {m : Memory} (hm : m.wf = true) (a : Nat) (v : Byte) (c : Nat) :
    (m.write a v).read c = if c = a then v else m.read c := read_write_from hm a v c

/-! ### The primitives -/

/-- `MemRead` answers the byte exactly for an address in range (R51). -/
theorem memRead_ok {m : Memory} {a : Nat} (h : a < Config.memSize) : memRead m a = .ok (m.read a) := by
  simp [memRead, Nat.not_le.mpr h]

theorem memRead_error {m : Memory} {a : Nat} (h : Config.memSize ≤ a) : memRead m a = .error a := by
  simp [memRead, h]

theorem memWrite_ok {m : Memory} {a : Nat} (h : a < Config.memSize) (v : Byte) :
    memWrite m a v = .ok (m.write a v) := by
  simp [memWrite, Nat.not_le.mpr h]

theorem memWrite_error {m : Memory} {a : Nat} (h : Config.memSize ≤ a) (v : Byte) :
    memWrite m a v = .error a := by
  simp [memWrite, h]

/-- The first address out of range of a transfer from `a` that does not fit. -/
def firstOutOfRange (a : Nat) : Nat := max a Config.memSize

theorem memReads_ok (m : Memory) (a n : Nat) (h : n = 0 ∨ a + n ≤ Config.memSize) :
    memReads m a n = .ok ((List.range n).map fun k => m.read (a + k)) := by
  induction n generalizing a with
  | zero => rfl
  | succ n ih =>
    have h' : a + (n + 1) ≤ Config.memSize := by omega
    simp only [memReads, memRead_ok (show a < Config.memSize by omega), ih (a + 1) (by omega),
      List.range_succ_eq_map, List.map_cons, List.map_map]
    congr 2
    apply List.map_congr_left
    intro k _
    simp only [Function.comp]
    congr 1
    omega

theorem memReads_error (m : Memory) (a n : Nat) (hn : n ≠ 0) (h : Config.memSize < a + n) :
    memReads m a n = .error (firstOutOfRange a) := by
  induction n generalizing a with
  | zero => exact absurd rfl hn
  | succ n ih =>
    by_cases ha : a < Config.memSize
    · simp only [memReads, memRead_ok ha, ih (a + 1) (by omega) (by omega)]
      unfold firstOutOfRange; congr 1; omega
    · simp only [memReads, memRead_error (show Config.memSize ≤ a by omega)]
      unfold firstOutOfRange; congr 1; omega

/-- Bytes written at ascending addresses from `a`, with no check of the range. -/
theorem memWrites_ok (m : Memory) (a : Nat) (bs : List Byte) (h : bs = [] ∨ a + bs.length ≤ Config.memSize) :
    memWrites m a bs = .ok (copyBytes m a bs) := by
  induction bs generalizing m a with
  | nil => rfl
  | cons b bs ih =>
    have h' : a + (bs.length + 1) ≤ Config.memSize := by simpa using h
    simp only [memWrites, memWrite_ok (show a < Config.memSize by omega), copyBytes]
    exact ih _ _ (Or.inr (by omega))

theorem memWrites_error (m : Memory) (a : Nat) (bs : List Byte) (hb : bs ≠ [])
    (h : Config.memSize < a + bs.length) : memWrites m a bs = .error (firstOutOfRange a) := by
  induction bs generalizing m a with
  | nil => exact absurd rfl hb
  | cons b bs ih =>
    simp only [List.length_cons] at h
    by_cases ha : a < Config.memSize
    · simp only [memWrites, memWrite_ok ha]
      rw [ih _ _ (by rintro rfl; simp at h; omega) (by omega)]
      unfold firstOutOfRange; congr 1; omega
    · simp only [memWrites, memWrite_error (show Config.memSize ≤ a by omega)]
      unfold firstOutOfRange; congr 1; omega

theorem copyBytes_wf {m : Memory} (hm : m.wf = true) (a : Nat) (bs : List Byte)
    (h : bs = [] ∨ a + bs.length ≤ Config.memSize) : (copyBytes m a bs).wf = true := by
  induction bs generalizing m a with
  | nil => exact hm
  | cons b bs ih =>
    have h' : a + (bs.length + 1) ≤ Config.memSize := by simpa using h
    exact ih (write_wf hm (by omega) b) (a + 1) (Or.inr (by omega))

/-- What a copy leaves: the copied bytes from `a` on, every other byte as before. -/
theorem read_copyBytes {m : Memory} (hm : m.wf = true) (a : Nat) (bs : List Byte)
    (h : bs = [] ∨ a + bs.length ≤ Config.memSize) (c : Nat) :
    (copyBytes m a bs).read c =
      if a ≤ c ∧ c < a + bs.length then bs.getD (c - a) 0 else m.read c := by
  induction bs generalizing m a with
  | nil =>
    have hno : ¬ (a ≤ c ∧ c < a + ([] : List Byte).length) := by simp
    rw [if_neg hno]; rfl
  | cons b bs ih =>
    have h' : a + (bs.length + 1) ≤ Config.memSize := by simpa using h
    simp only [copyBytes, List.length_cons]
    rw [ih (write_wf hm (by omega) b) (a + 1) (Or.inr (by omega)), read_write hm]
    by_cases hca : c = a
    · subst hca
      have h2 : c ≤ c ∧ c < c + (bs.length + 1) := by omega
      simp [h2]
    · by_cases hin : a + 1 ≤ c ∧ c < a + 1 + bs.length
      · have h2 : a ≤ c ∧ c < a + (bs.length + 1) := by omega
        obtain ⟨j, hj⟩ : ∃ j, c - a = j + 1 := ⟨c - a - 1, by omega⟩
        have hj' : c - (a + 1) = j := by omega
        rw [if_pos hin, if_pos h2, hj, hj', List.getD_cons_succ]
      · have h2 : ¬ (a ≤ c ∧ c < a + (bs.length + 1)) := by omega
        rw [if_neg hin, if_neg h2, if_neg hca]

theorem memWritesSome_wf (done : Nat → Bool) {m : Memory} (hm : m.wf = true) (a k : Nat) (bs : List Byte) :
    (memWritesSome done m a k bs).wf = true := by
  induction bs generalizing m a k with
  | nil => exact hm
  | cons b bs ih =>
    unfold memWritesSome
    split
    · apply ih
      split
      · exact write_wf hm ‹_› b
      · exact hm
    · exact hm

/-- A store that faulted part way leaves every byte outside the transfer as it was (60_exceptions.md R178). -/
theorem read_memWritesSome (done : Nat → Bool) {m : Memory} (hm : m.wf = true) (a k : Nat) (bs : List Byte)
    (c : Nat) (hc : ¬ (a ≤ c ∧ c < a + bs.length)) :
    (memWritesSome done m a k bs).read c = m.read c := by
  induction bs generalizing m a k with
  | nil => rfl
  | cons b bs ih =>
    simp only [List.length_cons] at hc
    unfold memWritesSome
    split
    · rename_i ha
      have hwf : (if done k then m.write a b else m).wf = true := by
        split
        · exact write_wf hm ha b
        · exact hm
      rw [ih hwf (a + 1) (k + 1) (by omega)]
      have hne : c ≠ a := by omega
      split
      · rw [read_write hm, if_neg hne]
      · rfl
    · rfl

/-- After a store that faulted part way each byte has its old value, or it is in range and has the value that was being
stored there (R178). -/
theorem read_memWritesSome_cases (done : Nat → Bool) {m : Memory} (hm : m.wf = true) (a k : Nat) (bs : List Byte)
    (c : Nat) : (memWritesSome done m a k bs).read c = m.read c ∨
      (a ≤ c ∧ c < a + bs.length ∧ c < Config.memSize ∧ (memWritesSome done m a k bs).read c = bs.getD (c - a) 0) := by
  induction bs generalizing m a k with
  | nil => exact .inl rfl
  | cons b bs ih =>
    unfold memWritesSome
    split
    · rename_i ha
      have hwf : (if done k then m.write a b else m).wf = true := by
        split
        · exact write_wf hm ha b
        · exact hm
      simp only [List.length_cons]
      rcases ih hwf (a + 1) (k + 1) with h | ⟨h1, h2, h3, h4⟩
      · rw [h]
        by_cases hca : c = a
        · subst hca
          split
          · right
            rw [read_write hm, if_pos rfl]
            simp [ha]
          · exact .inl rfl
        · left
          split
          · rw [read_write hm, if_neg hca]
          · rfl
      · obtain ⟨j, hj⟩ : ∃ j, c - a = j + 1 := ⟨c - a - 1, by omega⟩
        have hj' : c - (a + 1) = j := by omega
        rw [h4, hj, hj', List.getD_cons_succ]
        exact .inr ⟨by omega, by omega, h3, rfl⟩
    · exact .inl rfl

theorem placeBytes_wf {m : Memory} (hm : m.wf = true) (a : Nat) (bs : List Byte) :
    (placeBytes m a bs).wf = true := memWritesSome_wf _ hm a 0 bs

/-- `MemWrite` keeps the canonical form. -/
theorem memWrite_wf {m m' : Memory} (hm : m.wf = true) {a : Nat} {v : Byte} (h : memWrite m a v = .ok m') :
    m'.wf = true := by
  unfold memWrite at h
  split at h
  · cases h
  · cases h; exact write_wf hm (by omega) v

/-- A run of stores keeps the canonical form. -/
theorem memWrites_wf {m m' : Memory} (hm : m.wf = true) {a : Nat} {bs : List Byte}
    (h : memWrites m a bs = .ok m') : m'.wf = true := by
  induction bs generalizing m a with
  | nil => cases h; exact hm
  | cons b bs ih =>
    unfold memWrites at h
    split at h
    · cases h
    · exact ih (memWrite_wf hm ‹_›) h

/-- The memory after reset is in its canonical form. -/
theorem reset_mem_wf : State.reset.mem.wf = true := rfl

end Sys2Proof.Machine
end

