-- ==== Sys2Proof/Laws/Ops.lean ====
section
/-!
SUPPORT. One lemma per shared operation that says once everything it can do; proofs cite these instead of unfolding.
-/
namespace Sys2Proof.Machine

/-! ### Transfers through I -/

/-- A store through I that fits completes: the bytes are copied and nothing else changes (43_index_memory.md R143, R144). -/
theorem storeAtI_fits (bs : List Byte) (s : State) (h : bs = [] ∨ s.i.toNat + bs.length ≤ Config.memSize) :
    storeAtI bs s = .next { s with mem := copyBytes s.mem s.i.toNat bs } := by
  unfold storeAtI
  rw [memWrites_ok _ _ _ h]

/-- A store through I that does not fit raises MemOutOfRange at the first address out of range (60_exceptions.md R172). -/
theorem storeAtI_faults (bs : List Byte) (s : State) (hb : bs ≠ [])
    (h : Config.memSize < s.i.toNat + bs.length) :
    storeAtI bs s = .next (raiseInStep .memOutOfRange (firstOutOfRange s.i.toNat)
      { s with mem := memWritesSome (Config.faultEffectDone s.draws) s.mem s.i.toNat 0 bs }) := by
  unfold storeAtI
  rw [memWrites_error _ _ _ hb h]

/-- Everything `storeAtI` can do. -/
theorem storeAtI_cases (bs : List Byte) (s : State) :
    (∃ m, memWrites s.mem s.i.toNat bs = .ok m ∧ storeAtI bs s = .next { s with mem := m }) ∨
    (∃ a, memWrites s.mem s.i.toNat bs = .error a ∧
      storeAtI bs s = .next (raiseInStep .memOutOfRange a
        { s with mem := memWritesSome (Config.faultEffectDone s.draws) s.mem s.i.toNat 0 bs })) := by
  unfold storeAtI
  cases h : memWrites s.mem s.i.toNat bs with
  | ok m => exact .inl ⟨m, rfl, rfl⟩
  | error a => exact .inr ⟨a, rfl, rfl⟩

/-- The bytes that a load of `n` registers through I reads. -/
def bytesAtI (s : State) (n : Nat) : List Byte := (List.range n).map fun k => s.mem.read (s.i.toNat + k)

/-- A load through I that fits completes (43_index_memory.md R145). -/
theorem loadFromI_fits (n : Nat) (s : State) (h : n = 0 ∨ s.i.toNat + n ≤ Config.memSize) :
    loadFromI n s = .next { s with v := loadRegs s.v 0 (bytesAtI s n) } := by
  unfold loadFromI
  rw [memReads_ok _ _ _ h]
  rfl

/-- A load through I that does not fit raises MemOutOfRange at the first address out of range (R172). -/
theorem loadFromI_faults (n : Nat) (s : State) (hn : n ≠ 0) (h : Config.memSize < s.i.toNat + n) :
    loadFromI n s = .next (raiseInStep .memOutOfRange (firstOutOfRange s.i.toNat)
      { s with v := loadRegsSome (Config.faultEffectDone s.draws) s.mem s.v s.i.toNat 0 n }) := by
  unfold loadFromI
  rw [memReads_error _ _ _ hn h]

/-- Everything `loadFromI` can do. -/
theorem loadFromI_cases (n : Nat) (s : State) :
    (∃ bs, loadFromI n s = .next { s with v := loadRegs s.v 0 bs }) ∨
    (∃ a, loadFromI n s = .next (raiseInStep .memOutOfRange a
        { s with v := loadRegsSome (Config.faultEffectDone s.draws) s.mem s.v s.i.toNat 0 n })) := by
  unfold loadFromI
  cases memReads s.mem s.i.toNat n with
  | ok bs => exact .inl ⟨bs, rfl⟩
  | error a => exact .inr ⟨a, rfl⟩

/-- A register after a run of loads: the byte loaded, or as before. -/
theorem loadRegs_get (v : Regs) (k : Nat) (bs : List Byte) (r : Fin 16) :
    (loadRegs v k bs).get r = if k ≤ r.val ∧ r.val < k + bs.length then bs.getD (r.val - k) 0 else v.get r := by
  induction bs generalizing v k with
  | nil =>
    have hno : ¬ (k ≤ r.val ∧ r.val < k + ([] : List Byte).length) := by simp
    rw [if_neg hno]; rfl
  | cons b bs ih =>
    simp only [loadRegs, List.length_cons]
    rw [ih]
    by_cases hk : r.val = k
    · have h1 : ¬ (k + 1 ≤ r.val ∧ r.val < k + 1 + bs.length) := by omega
      have h2 : k ≤ r.val ∧ r.val < k + (bs.length + 1) := by omega
      rw [if_neg h1, if_pos h2]
      simp [Vector.get_eq_getElem, hk]
    · by_cases hin : k + 1 ≤ r.val ∧ r.val < k + 1 + bs.length
      · have h2 : k ≤ r.val ∧ r.val < k + (bs.length + 1) := by omega
        obtain ⟨j, hj⟩ : ∃ j, r.val - k = j + 1 := ⟨r.val - k - 1, by omega⟩
        have hj' : r.val - (k + 1) = j := by omega
        rw [if_pos hin, if_pos h2, hj, hj', List.getD_cons_succ]
      · have h2 : ¬ (k ≤ r.val ∧ r.val < k + (bs.length + 1)) := by omega
        rw [if_neg hin, if_neg h2]
        have hk' : ¬ k = r.val := fun h => hk h.symm
        simp [Vector.get_eq_getElem, hk']

/-- A register outside a load that faulted part way is as before (60_exceptions.md R178). -/
theorem loadRegsSome_get (done : Nat → Bool) (m : Memory) (v : Regs) (a k n : Nat) (r : Fin 16)
    (h : ¬ (k ≤ r.val ∧ r.val < k + n)) : (loadRegsSome done m v a k n).get r = v.get r := by
  induction n generalizing v a k with
  | zero => rfl
  | succ n ih =>
    unfold loadRegsSome
    split
    · rw [ih _ _ _ (by omega)]
      split
      · have hk' : ¬ k = r.val := by omega
        simp [Vector.get_eq_getElem, hk']
      · rfl
    · rfl

/-- After a load that faulted part way each register has its old value, or its byte is in range and it has that byte
(R178). -/
theorem loadRegsSome_cases (done : Nat → Bool) (m : Memory) (v : Regs) (a k n : Nat) (r : Fin 16) :
    (loadRegsSome done m v a k n).get r = v.get r ∨
      (k ≤ r.val ∧ r.val < k + n ∧ a + (r.val - k) < Config.memSize ∧
        (loadRegsSome done m v a k n).get r = m.read (a + (r.val - k))) := by
  induction n generalizing v a k with
  | zero => exact .inl rfl
  | succ n ih =>
    unfold loadRegsSome
    split
    · rename_i ha
      rcases ih (if done k then v.setIfInBounds k (m.read a) else v) (a + 1) (k + 1) with h | ⟨h1, h2, h3, h4⟩
      · rw [h]
        by_cases hk : r.val = k
        · split
          · right
            simp [Vector.get_eq_getElem, hk, ha]
          · exact .inl rfl
        · left
          split
          · have hk' : ¬ k = r.val := fun e => hk e.symm
            simp [Vector.get_eq_getElem, hk']
          · rfl
      · rw [h4]
        have e : a + 1 + (r.val - (k + 1)) = a + (r.val - k) := by omega
        rw [e] at h3 ⊢
        exact .inr ⟨by omega, by omega, h3, rfl⟩
    · exact .inl rfl

/-- V0 to Vx are x + 1 bytes, the `k`-th being `V[k]` (R144). -/
theorem regsUpTo_length (s : State) (x : Nibble) : (s.regsUpTo x).length = x.toNat + 1 := by
  have := x.isLt
  simp [State.regsUpTo]
  omega

theorem regsUpTo_getD (s : State) (x k : Nibble) (h : k.toNat ≤ x.toNat) :
    (s.regsUpTo x).getD k.toNat 0 = s.reg k := by
  have hk := k.isLt
  have : k.toNat < x.toNat + 1 := by omega
  simp [State.regsUpTo, List.getD_eq_getElem?_getD, this, State.reg,
    Vector.get_eq_getElem, hk]

theorem bcdDigits_length (b : Byte) : (bcdDigits b).length = 3 := rfl

/-! ### The stack -/

/-- Push answers exactly below the stack's depth (10_state.md R28). -/
theorem push_eq (v : Word16) (s : State) :
    push v s = if s.sp.toNat < 16 then some (s.pushed v) else none := by
  unfold push Config.stackDepth
  split <;> split <;> first | rfl | omega

/-- Pop in a state with 0 < SP <= 16: the entry below SP, SP one less (R28). -/
theorem pop_value (s : State) (h : s.sp ≠ 0) (h' : s.sp.toNat ≤ 16) :
    ∃ k : Fin 16, k.val = s.sp.toNat - 1 ∧ pop s = .value (s.stack.get k) { s with sp := s.sp - 1 } := by
  have h0 : s.sp.toNat ≠ 0 := fun e => h (BitVec.eq_of_toNat_eq e)
  have hlt : s.sp.toNat - 1 < 16 := by omega
  refine ⟨⟨s.sp.toNat - 1, hlt⟩, rfl, ?_⟩
  unfold pop
  rw [if_neg h]
  simp [hlt, Vector.get_eq_getElem]

theorem pop_underflow (s : State) (h : s.sp = 0) : pop s = .underflow := by simp [pop, h]

theorem pop_noEntry (s : State) (h : 16 < s.sp.toNat) : pop s = .noEntry := by
  have h0 : s.sp ≠ 0 := by intro e; rw [e] at h; simp at h
  have hge : ¬ s.sp.toNat - 1 < 16 := by omega
  unfold pop
  rw [if_neg h0]
  simp [hge]

/-! ### The keypad -/

/-- The key of an index in range (45_keypad_timers.md R160). -/
theorem keyAt_some (s : State) (k : Byte) (h : k.toNat < 16) : s.keyAt k = some (s.keys.get ⟨k.toNat, h⟩) := by
  simp [State.keyAt, h, Vector.get_eq_getElem]

theorem keyAt_none (s : State) (k : Byte) (h : 15 < k.toNat) : s.keyAt k = none := by
  have : ¬ k.toNat < 16 := by omega
  simp [State.keyAt, this]

/-- KEYSEL answers a key that is down with no lower key down (R162, D11). -/
theorem keySel_some {keys : Vector Bool 16} {k : Fin 16} (h : keySel keys = some k) :
    keys.get k = true ∧ ∀ j, j < k → keys.get j = false := by
  unfold keySel at h
  rw [List.find?_eq_some_iff_getElem] at h
  obtain ⟨hk, i, hi, he, hlt⟩ := h
  refine ⟨hk, fun j hj => ?_⟩
  simp only [List.getElem_finRange] at he hlt
  have hji : j.val < i := by
    have := congrArg Fin.val he
    have hj' : j.val < k.val := hj
    simp at this
    omega
  simpa using hlt j.val hji

/-- KEYSEL answers nothing exactly when every key is up. -/
theorem keySel_none {keys : Vector Bool 16} : keySel keys = none ↔ ∀ k, keys.get k = false := by
  simp [keySel, List.find?_eq_none]

/-! ### The framebuffer -/

/-- A toggle inverts one pixel and leaves every other as it was (44_display.md R153). -/
@[simp] theorem pixel_toggle (fb : Framebuffer) (x x' : Fin 64) (y y' : Fin 32) :
    (fb.toggle x y).pixel x' y' = if x' = x ∧ y' = y then !fb.pixel x y else fb.pixel x' y' := by
  simp only [Framebuffer.toggle, Framebuffer.pixel, Vector.get_eq_getElem, Vector.getElem_set]
  by_cases hy : y' = y
  · subst hy
    by_cases hx : x' = x
    · subst hx; simp
    · have : ¬ x'.val = x.val := fun h => hx (Fin.ext h)
      simp [hx, this]
  · have : ¬ y.val = y'.val := fun h => hy (Fin.ext h.symm)
    simp [hy, this]

@[simp] theorem pixel_clear (x : Fin 64) (y : Fin 32) : Framebuffer.clear.pixel x y = false := by
  simp [Framebuffer.clear, Framebuffer.pixel, Vector.get_eq_getElem]

/-! ### The step -/

/-- The fetch of two bytes in range (40_step_cycle.md R91). -/
theorem fetch_ok (s : State) (h : s.pc.toNat ≤ 4094) :
    s.fetch = .ok (wordOfBytes (s.mem.read s.pc.toNat) (s.mem.read (s.pc.toNat + 1))) := by
  unfold State.fetch memReadWord
  rw [memRead_ok (show s.pc.toNat < Config.memSize by unfold Config.memSize; omega),
    memRead_ok (show s.pc.toNat + 1 < Config.memSize by unfold Config.memSize; omega)]

/-- The fetch beyond the end of memory (R91). -/
theorem fetch_error (s : State) (h : 4095 ≤ s.pc.toNat) : s.fetch = .error (firstOutOfRange s.pc.toNat) := by
  unfold State.fetch memReadWord firstOutOfRange Config.memSize
  by_cases h' : s.pc.toNat = 4095
  · rw [memRead_ok (show s.pc.toNat < Config.memSize by unfold Config.memSize; omega),
      memRead_error (show Config.memSize ≤ s.pc.toNat + 1 by unfold Config.memSize; omega)]
    simp [h']
  · rw [memRead_error (show Config.memSize ≤ s.pc.toNat by unfold Config.memSize; omega)]
    simp only [Except.error.injEq]
    omega

/-- Everything a step that answers a next state can have done: a fetch fault, an unimplemented word, or the decoded
instruction run after the advance (R90). -/
theorem stepBy_next {run : Instr → State → Result} {s t : State} (h : stepBy run s = .next t) :
    s.faulted = false ∧
    ((∃ a, s.fetch = .error a ∧ t = raise .memOutOfRange a s) ∨
     (∃ w e, s.fetch = .ok w ∧ decodeWord w = .error e ∧
        t = raiseInStep .unimplementedInstruction w.toNat s.advance) ∨
     (∃ w i, s.fetch = .ok w ∧ decodeWord w = .ok i ∧ run i s.advance = .next t)) := by
  unfold stepBy at h
  split at h
  · cases h
  · refine ⟨by simpa using ‹¬ s.faulted = true›, ?_⟩
    split at h
    · rename_i a ha
      simp only [fetchFault, Host.Outcome.next.injEq] at h
      exact .inl ⟨a, ha, h.symm⟩
    · rename_i w hw
      split at h
      · rename_i i hi
        exact .inr (.inr ⟨w, i, hw, hi, h⟩)
      · rename_i e he
        simp only [unimplemented, Host.Outcome.next.injEq] at h
        exact .inr (.inl ⟨w, e, hw, he, h.symm⟩)

/-- A step over a decoded instruction is `run` of it after the advance (R90, R92). -/
theorem stepBy_decoded {run : Instr → State → Result} {s : State} (hf : s.faulted = false) {w : Word16} {i : Instr}
    (hw : s.fetch = .ok w) (hi : decodeWord w = .ok i) : stepBy run s = run i s.advance := by
  simp [stepBy, hf, hw, hi]

end Sys2Proof.Machine
end

