-- ==== Sys2Proof/Laws/Display.lean ====
section
/-!
SUPPORT. What the blitter does (44_display.md R151, R152): a sprite inverts the pixels of its mask, each once, and the
collision bit is set iff the mask meets a set pixel.
-/
namespace Sys2Proof.Machine

/-- `b'` is `b` with exactly the pixels of `M` inverted, and its collision bit set iff `b`'s was or `M` meets a set pixel. -/
def Inverts (M : Fin 64 → Fin 32 → Prop) (b b' : Blit) : Prop :=
  (∀ px py, (M px py → b'.fb.pixel px py = !b.fb.pixel px py) ∧ (¬ M px py → b'.fb.pixel px py = b.fb.pixel px py)) ∧
  (b'.collision = true ↔ b.collision = true ∨ ∃ px py, M px py ∧ b.fb.pixel px py = true)

theorem inverts_refl (b : Blit) : Inverts (fun _ _ => False) b b := by
  simp [Inverts]

theorem inverts_congr {M M' : Fin 64 → Fin 32 → Prop} {b b' : Blit} (h : ∀ px py, M px py ↔ M' px py) (hi : Inverts M b b') : Inverts M' b b' := by
  have : M = M' := by funext a c; exact propext (h a c)
  rwa [← this]

theorem inverts_trans {M N : Fin 64 → Fin 32 → Prop} {b c d : Blit} (hd : ∀ px py, ¬ (M px py ∧ N px py)) (h1 : Inverts M b c) (h2 : Inverts N c d) :
    Inverts (fun px py => M px py ∨ N px py) b d := by
  obtain ⟨p1, c1⟩ := h1
  obtain ⟨p2, c2⟩ := h2
  refine ⟨fun px py => ?_, ?_⟩
  · have := p1 px py; have := p2 px py; have := hd px py
    by_cases hM : M px py <;> by_cases hN : N px py <;> simp_all
  · rw [c2, c1]
    constructor
    · rintro ((h | ⟨px, py, hM, h⟩) | ⟨px, py, hN, h⟩)
      · exact .inl h
      · exact .inr ⟨px, py, .inl hM, h⟩
      · have hnM : ¬ M px py := fun hM => hd px py ⟨hM, hN⟩
        rw [(p1 px py).2 hnM] at h
        exact .inr ⟨px, py, .inr hN, h⟩
    · rintro (h | ⟨px, py, hM | hN, h⟩)
      · exact .inl (.inl h)
      · exact .inl (.inr ⟨px, py, hM, h⟩)
      · have hnM : ¬ M px py := fun hM => hd px py ⟨hM, hN⟩
        exact .inr ⟨px, py, hN, by rw [(p1 px py).2 hnM]; exact h⟩

theorem inverts_bit (b : Blit) (x : Fin 64) (y : Fin 32) : Inverts (fun px py => px = x ∧ py = y) b (b.bit x y) := by
  refine ⟨fun px py => ?_, ?_⟩
  · simp only [Blit.bit, pixel_toggle]
    constructor
    · rintro ⟨rfl, rfl⟩; simp
    · intro h; rw [if_neg h]
  · simp [Blit.bit]

/-- The first `n` bits of a sprite row: their pixels are distinct as `n` is at most 64. -/
theorem row_inverts (b : Blit) (x0 y : Nat) (row : Byte) (n : Nat) (hn : n ≤ 64) :
    Inverts (fun px py => ∃ lx, lx < n ∧ px.val = (x0 + lx) % 64 ∧ py.val = y % 32 ∧ spriteBit row lx = true) b
      ((List.range n).foldl
        (fun b lx => if spriteBit row lx then b.bit (Fin.ofNat 64 (x0 + lx)) (Fin.ofNat 32 y) else b) b) := by
  induction n with
  | zero => simpa using inverts_refl b
  | succ n ih =>
    rw [List.range_succ, List.foldl_append]
    simp only [List.foldl_cons, List.foldl_nil]
    split
    · rename_i hb
      refine inverts_congr ?_ (inverts_trans ?_ (ih (by omega)) (inverts_bit _ _ _))
      · intro px py
        constructor
        · rintro (⟨lx, h, h'⟩ | ⟨h1, h2⟩)
          · exact ⟨lx, by omega, h'⟩
          · exact ⟨n, by omega, by rw [h1]; rfl, by rw [h2]; rfl, hb⟩
        · rintro ⟨lx, h, h1, h2, h3⟩
          by_cases hl : lx = n
          · subst hl; exact .inr ⟨Fin.ext (by rw [h1]; rfl), Fin.ext (by rw [h2]; rfl)⟩
          · exact .inl ⟨lx, by omega, h1, h2, h3⟩
      · rintro px py ⟨⟨lx, h, h1, -⟩, h2, -⟩
        rw [h2] at h1
        have : (Fin.ofNat 64 (x0 + n)).val = (x0 + n) % 64 := rfl
        omega
    · rename_i hb
      refine inverts_congr ?_ (ih (by omega))
      intro px py
      constructor
      · rintro ⟨lx, h, h'⟩; exact ⟨lx, by omega, h'⟩
      · rintro ⟨lx, h, h1, h2, h3⟩
        by_cases hl : lx = n
        · subst hl; exact absurd h3 hb
        · exact ⟨lx, by omega, h1, h2, h3⟩

/-- A whole sprite: its rows fall on distinct framebuffer rows as there are at most 32. -/
theorem sprite_inverts (b : Blit) (x0 y : Nat) (rows : List Byte) (hn : rows.length ≤ 32) :
    Inverts (fun px py => ∃ ly lx, ly < rows.length ∧ lx < 8 ∧ px.val = (x0 + lx) % 64 ∧ py.val = (y + ly) % 32 ∧
      spriteBit (rows.getD ly 0) lx = true) b (b.sprite x0 y rows) := by
  induction rows generalizing b y with
  | nil => refine inverts_congr ?_ (inverts_refl b); simp
  | cons r rs ih =>
    simp only [List.length_cons] at hn
    refine inverts_congr ?_ (inverts_trans ?_ (row_inverts b x0 y r 8 (by omega)) (ih _ (y + 1) (by omega)))
    · intro px py
      constructor
      · rintro (⟨lx, h, h1, h2, h3⟩ | ⟨ly, lx, h, h0, h1, h2, h3⟩)
        · exact ⟨0, lx, by simp, h, h1, h2, h3⟩
        · exact ⟨ly + 1, lx, by simp; omega, h0, h1, by rw [h2]; congr 1; omega, by simpa using h3⟩
      · rintro ⟨ly, lx, h, h0, h1, h2, h3⟩
        cases ly with
        | zero => exact .inl ⟨lx, h0, h1, h2, by simpa using h3⟩
        | succ ly => exact .inr ⟨ly, lx, by simp at h; omega, h0, h1, by rw [h2]; congr 1; omega, by simpa using h3⟩
    · rintro px py ⟨⟨lx, h, h1, h2, -⟩, ⟨ly, lx', h', -, -, h4, -⟩⟩
      omega

end Sys2Proof.Machine
end

