-- ==== Sys2Proof/Laws/PerInstr.lean ====
section
/-!
SUPPORT. Statements made per instruction. `EncodedRow`: the word that the encoder gives an instruction lies in the
instruction's own row of the opcode map, (w & mask) == match (30_encoding.md R74), whatever its fields are.
-/
namespace Sys2Proof.Laws.EncodedRow

open Sys2Proof.Machine

/-- The encoded word matches the row of R74. -/
def Statement (i : Instr) : Prop := encode i &&& (opcodeMapRow i).1 = (opcodeMapRow i).2

/-- The shape `d1 nnn`. -/
theorem row_nnn (d : Nibble) (nnn : Addr12) (m : Word16) (hm : m = encodeNnn 0xF 0x000) (hd : d &&& 0xF = d) :
    encodeNnn d nnn &&& m = encodeNnn d 0x000 := by
  rw [hm, encodeNnn_and, hd, show (0x000 : Addr12) = 0#12 from rfl, BitVec.and_zero]

/-- The shape `d1 x nn` with nn an operand. -/
theorem row_xnn (d x : Nibble) (nn : Byte) (m : Word16) (hm : m = encodeXnn 0xF 0x0 0x00) (hd : d &&& 0xF = d) :
    encodeXnn d x nn &&& m = encodeXnn d 0x0 0x00 := by
  rw [hm, encodeXnn_and, hd, show (0x0 : Nibble) = 0#4 from rfl, show (0x00 : Byte) = 0#8 from rfl,
    BitVec.and_zero, BitVec.and_zero]

/-- The shape `d1 x nn` with nn a sub-opcode. -/
theorem row_sub (d x : Nibble) (nn : Byte) (m : Word16) (hm : m = encodeXnn 0xF 0x0 0xFF)
    (hd : d &&& 0xF = d ∧ nn &&& 0xFF = nn) : encodeXnn d x nn &&& m = encodeXnn d 0x0 nn := by
  rw [hm, encodeXnn_and, hd.1, hd.2, show (0x0 : Nibble) = 0#4 from rfl, BitVec.and_zero]

/-- The shape `d1 x y d4` with d4 a sub-opcode. -/
theorem row_xy (d x y e : Nibble) (m : Word16) (hm : m = wordOfNibbles 0xF 0x0 0x0 0xF)
    (hd : d &&& 0xF = d ∧ e &&& 0xF = e) : wordOfNibbles d x y e &&& m = wordOfNibbles d 0x0 0x0 e := by
  rw [hm, wordOfNibbles_and, hd.1, hd.2, show (0x0 : Nibble) = 0#4 from rfl, BitVec.and_zero, BitVec.and_zero]

/-- The shape `d1 x y d4` with d4 an operand or ignored. -/
theorem row_xyd (d x y e : Nibble) (m : Word16) (hm : m = wordOfNibbles 0xF 0x0 0x0 0x0) (hd : d &&& 0xF = d) :
    wordOfNibbles d x y e &&& m = wordOfNibbles d 0x0 0x0 0x0 := by
  rw [hm, wordOfNibbles_and, hd, show (0x0 : Nibble) = 0#4 from rfl, BitVec.and_zero, BitVec.and_zero,
    BitVec.and_zero]

theorem nop : Statement .nop := rfl
theorem cls : Statement .cls := rfl
theorem ret : Statement .ret := rfl
theorem jp (nnn : Addr12) : Statement (.jp nnn) := row_nnn _ _ _ rfl (by decide)
theorem call (nnn : Addr12) : Statement (.call nnn) := row_nnn _ _ _ rfl (by decide)
theorem seImm (x : Nibble) (nn : Byte) : Statement (.seImm x nn) := row_xnn _ _ _ _ rfl (by decide)
theorem sneImm (x : Nibble) (nn : Byte) : Statement (.sneImm x nn) := row_xnn _ _ _ _ rfl (by decide)
theorem seReg (x y d4 : Nibble) : Statement (.seReg x y d4) := row_xyd _ _ _ _ _ rfl (by decide)
theorem ldImm (x : Nibble) (nn : Byte) : Statement (.ldImm x nn) := row_xnn _ _ _ _ rfl (by decide)
theorem addImm (x : Nibble) (nn : Byte) : Statement (.addImm x nn) := row_xnn _ _ _ _ rfl (by decide)
theorem ldReg (x y : Nibble) : Statement (.ldReg x y) := row_xy _ _ _ _ _ rfl (by decide)
theorem orReg (x y : Nibble) : Statement (.orReg x y) := row_xy _ _ _ _ _ rfl (by decide)
theorem andReg (x y : Nibble) : Statement (.andReg x y) := row_xy _ _ _ _ _ rfl (by decide)
theorem xorReg (x y : Nibble) : Statement (.xorReg x y) := row_xy _ _ _ _ _ rfl (by decide)
theorem addReg (x y : Nibble) : Statement (.addReg x y) := row_xy _ _ _ _ _ rfl (by decide)
theorem subReg (x y : Nibble) : Statement (.subReg x y) := row_xy _ _ _ _ _ rfl (by decide)
theorem shr (x y : Nibble) : Statement (.shr x y) := row_xy _ _ _ _ _ rfl (by decide)
theorem subnReg (x y : Nibble) : Statement (.subnReg x y) := row_xy _ _ _ _ _ rfl (by decide)
theorem shl (x y : Nibble) : Statement (.shl x y) := row_xy _ _ _ _ _ rfl (by decide)
theorem sneReg (x y d4 : Nibble) : Statement (.sneReg x y d4) := row_xyd _ _ _ _ _ rfl (by decide)
theorem ldI (nnn : Addr12) : Statement (.ldI nnn) := row_nnn _ _ _ rfl (by decide)
theorem jpV0 (nnn : Addr12) : Statement (.jpV0 nnn) := row_nnn _ _ _ rfl (by decide)
theorem rnd (x : Nibble) (nn : Byte) : Statement (.rnd x nn) := row_xnn _ _ _ _ rfl (by decide)
theorem drw (x y n : Nibble) : Statement (.drw x y n) := row_xyd _ _ _ _ _ rfl (by decide)
theorem skp (x : Nibble) : Statement (.skp x) := row_sub _ _ _ _ rfl (by decide)
theorem sknp (x : Nibble) : Statement (.sknp x) := row_sub _ _ _ _ rfl (by decide)
theorem ldVxDt (x : Nibble) : Statement (.ldVxDt x) := row_sub _ _ _ _ rfl (by decide)
theorem ldVxK (x : Nibble) : Statement (.ldVxK x) := row_sub _ _ _ _ rfl (by decide)
theorem ldDtVx (x : Nibble) : Statement (.ldDtVx x) := row_sub _ _ _ _ rfl (by decide)
theorem ldStVx (x : Nibble) : Statement (.ldStVx x) := row_sub _ _ _ _ rfl (by decide)
theorem addI (x : Nibble) : Statement (.addI x) := row_sub _ _ _ _ rfl (by decide)
theorem ldF (x : Nibble) : Statement (.ldF x) := row_sub _ _ _ _ rfl (by decide)
theorem ldB (x : Nibble) : Statement (.ldB x) := row_sub _ _ _ _ rfl (by decide)
theorem ldMemVx (x : Nibble) : Statement (.ldMemVx x) := row_sub _ _ _ _ rfl (by decide)
theorem ldVxMem (x : Nibble) : Statement (.ldVxMem x) := row_sub _ _ _ _ rfl (by decide)

end Sys2Proof.Laws.EncodedRow
end

