-- ==== Sys2Proof/Tests/Slice0.lean ====
section
/-!
SUPPORT. Small tests, each about one step or one word, with the expected value taken from 95_test_vectors.md (the vector's
id is in the comment) or worked out by hand from the rule named; the smoke test of WellFormed; and, for every statement of
Certificates/Slice0/Obligations.lean that has hypotheses, a concrete state and operands that meet them (`witness_…`), at the
boundaries of their ranges.
-/
namespace Sys2Proof.Tests

open Sys2Proof Sys2Proof.Machine

/-- The state of the vectors: after reset, PC at 0x200 as after a load. -/
def base : State := { State.reset with pc := 0x200 }

/-- `s` with the instruction word `w` at its PC. -/
def atWord (w : Nat) (s : State := base) : State := s.withFetchWord 16 w

/-- The outcome is a next state with the property `p`. -/
def nextHas (r : Result) (p : State → Bool) : Bool :=
  match r with
  | .next t => p t
  | _ => false

/-- The outcome is a next state with this FLT. -/
def faultsAs (r : Result) (c : Cause) (info : Word16) : Bool := nextHas r fun t => t.flt == ⟨c, info⟩

/-- Registers set from a list. -/
def withRegs (rs : List (Nibble × Byte)) (s : State := base) : State := rs.foldl (fun s r => s.setReg r.1 r.2) s

/-- Bytes placed in memory. -/
def withMem (a : Nat) (bs : List Byte) (s : State) : State := { s with mem := placeBytes s.mem a bs }

/-! ### Well-formedness: the one check (R76), a term it refuses for each of the two instructions it is about -/

theorem test_wellFormed_refuses_seReg : (Instr.seReg 1 2 7).wellFormed true = false := by decide
theorem test_wellFormed_refuses_sneReg : (Instr.sneReg 1 2 0xF).wellFormed true = false := by decide
theorem test_wellFormed_default : (Instr.seReg 1 2 7).wellFormed strictD4 = true := by decide

/-! ### Decoding: a word for every constructor, written out from R74's row and R71's fields -/

theorem test_decode_family0 :
    decodeWord 0b0000000000000000 = .ok .nop ∧ decodeWord 0b0000000011100000 = .ok .cls ∧
    decodeWord 0b0000000011101110 = .ok .ret := by decide

theorem test_decode_jumps :
    decodeWord 0b0001101010111100 = .ok (.jp 0xABC) ∧ decodeWord 0b0010101010111100 = .ok (.call 0xABC) ∧
    decodeWord 0b1011001100000000 = .ok (.jpV0 0x300) := by decide

theorem test_decode_skips :
    decodeWord 0b0011001100101010 = .ok (.seImm 3 0x2A) ∧ decodeWord 0b0100001100101011 = .ok (.sneImm 3 0x2B) ∧
    decodeWord 0b0101000100100111 = .ok (.seReg 1 2 7) ∧ decodeWord 0b1001000100101111 = .ok (.sneReg 1 2 0xF) := by
  decide

theorem test_decode_immediate :
    decodeWord 0b0110001110101011 = .ok (.ldImm 3 0xAB) ∧ decodeWord 0b0111111100000010 = .ok (.addImm 0xF 0x02) ∧
    decodeWord 0b1100001100001111 = .ok (.rnd 3 0x0F) := by decide

theorem test_decode_family8 :
    decodeWord 0b1000000100100000 = .ok (.ldReg 1 2) ∧ decodeWord 0b1000000100100001 = .ok (.orReg 1 2) ∧
    decodeWord 0b1000000100100010 = .ok (.andReg 1 2) ∧ decodeWord 0b1000000100100011 = .ok (.xorReg 1 2) ∧
    decodeWord 0b1000000100100100 = .ok (.addReg 1 2) ∧ decodeWord 0b1000000100100101 = .ok (.subReg 1 2) ∧
    decodeWord 0b1000000100100110 = .ok (.shr 1 2) ∧ decodeWord 0b1000000100100111 = .ok (.subnReg 1 2) ∧
    decodeWord 0b1000000100101110 = .ok (.shl 1 2) := by decide

theorem test_decode_index_and_draw :
    decodeWord 0b1010111111111111 = .ok (.ldI 0xFFF) ∧ decodeWord 0b1101000100100011 = .ok (.drw 1 2 3) := by decide

theorem test_decode_familyE :
    decodeWord 0b1110001110011110 = .ok (.skp 3) ∧ decodeWord 0b1110001110100001 = .ok (.sknp 3) := by decide

theorem test_decode_familyF :
    decodeWord 0b1111001100000111 = .ok (.ldVxDt 3) ∧ decodeWord 0b1111001100001010 = .ok (.ldVxK 3) ∧
    decodeWord 0b1111001100010101 = .ok (.ldDtVx 3) ∧ decodeWord 0b1111001100011000 = .ok (.ldStVx 3) ∧
    decodeWord 0b1111001100011110 = .ok (.addI 3) ∧ decodeWord 0b1111001100101001 = .ok (.ldF 3) ∧
    decodeWord 0b1111001100110011 = .ok (.ldB 3) ∧ decodeWord 0b1111001101010101 = .ok (.ldMemVx 3) ∧
    decodeWord 0b1111001101100101 = .ok (.ldVxMem 3) := by decide

/-- X1. -/
theorem test_decode_refuses :
    ([0x0001, 0x00E1, 0x00EF, 0x00FE, 0x0123, 0x0FFF, 0x8008, 0x800F, 0x812D, 0xE000, 0xE19F, 0xE1A0, 0xF000,
      0xF108, 0xF166, 0xF175, 0xF185, 0xFFFF].all fun w => decodeTableWord 16 w == none) = true := by decide

/-- F19, F23 with STRICT_D4 = true. -/
theorem test_decode_strict :
    decodeWith true 0x5127 = .error (.unimplemented 0x5127) ∧
    decodeWith true 0x912F = .error (.unimplemented 0x912F) ∧ decodeWith true 0x5120 = .ok (.seReg 1 2 0) := by decide

theorem test_decode_truncated : decodeBytes [0x12] = .error .truncated := by decide

theorem test_decodeTableWord : decodeTableWord 16 0xD123 = some (.drw 1 2 3) ∧ decodeTableWord 16 0x800F = none := by
  decide

/-! ### The step and control flow -/

/-- F1. -/
theorem test_nop : step (atWord 0x0000) = .next { base with pc := 0x202 } := by rfl

/-- X1. -/
theorem test_unimplemented : faultsAs (step (atWord 0x812D)) .unimplementedInstruction 0x812D = true := by decide

/-- F11, second step: the fetch at 0x10FE. -/
theorem test_fetch_far : faultsAs (step { base with pc := 0x10FE }) .memOutOfRange 0x10FE = true := by decide

/-- F25, second step: the low byte at 0x1000 is missing. -/
theorem test_fetch_last_byte : faultsAs (step { base with pc := 0x0FFF }) .memOutOfRange 0x1000 = true := by decide

/-- F27: an odd PC fetches as it stands. -/
theorem test_odd_pc :
    nextHas (step (atWord 0x63AB { base with pc := 0x201 })) (fun t => t.reg 3 == 0xAB && t.pc == 0x203) = true := by
  decide

/-- F28 (the font bytes are PRESUMED). -/
theorem test_step_without_load : faultsAs (step State.reset) .unimplementedInstruction 0xF090 = true := by decide

/-- F2. -/
theorem test_jp : nextHas (step (atWord 0x1ABC)) (fun t => t.pc == 0x0ABC) = true := by decide

/-- F26: the largest value a CALL can push. -/
theorem test_call :
    nextHas (step (atWord 0x2FFE { base with pc := 0x0FFE }))
      (fun t => t.stack.get 0 == 0x1000 && t.sp == 1 && t.pc == 0x0FFE) = true := by decide

/-- F8. -/
theorem test_call_full : faultsAs (step (atWord 0x2300 { base with sp := 16 })) .stackOverflow 16 = true := by decide

/-- F6. -/
theorem test_ret :
    nextHas (step (atWord 0x00EE { base with sp := 1, stack := base.stack.set 0 0x0206 }))
      (fun t => t.sp == 0 && t.pc == 0x0206 && t.stack.get 0 == 0x0206) = true := by decide

/-- F7. -/
theorem test_ret_empty : faultsAs (step (atWord 0x00EE)) .stackUnderflow 0 = true := by decide

/-- F10: d2 selects no register. -/
theorem test_jpV0 : nextHas (step (atWord 0xB300 (withRegs [(3, 4)]))) (fun t => t.pc == 0x0300) = true := by decide

/-- F11. -/
theorem test_jpV0_far : nextHas (step (atWord 0xBFFF (withRegs [(0, 0xFF)]))) (fun t => t.pc == 0x10FE) = true := by
  decide

/-- F12, F13. -/
theorem test_seImm :
    nextHas (step (atWord 0x332A (withRegs [(3, 0x2A)]))) (fun t => t.pc == 0x204) = true ∧
    nextHas (step (atWord 0x332B (withRegs [(3, 0x2A)]))) (fun t => t.pc == 0x202) = true := by decide

/-- F14, F15. -/
theorem test_sneImm :
    nextHas (step (atWord 0x432A (withRegs [(3, 0x2A)]))) (fun t => t.pc == 0x202) = true ∧
    nextHas (step (atWord 0x432B (withRegs [(3, 0x2A)]))) (fun t => t.pc == 0x204) = true := by decide

/-- F19, F17. -/
theorem test_seReg :
    nextHas (step (atWord 0x5127 (withRegs [(1, 7), (2, 7)]))) (fun t => t.pc == 0x204) = true ∧
    nextHas (step (atWord 0x5120 (withRegs [(1, 7), (2, 8)]))) (fun t => t.pc == 0x202) = true := by decide

/-- F23, F22. -/
theorem test_sneReg :
    nextHas (step (atWord 0x912F (withRegs [(1, 7), (2, 8)]))) (fun t => t.pc == 0x204) = true ∧
    nextHas (step (atWord 0x9330 (withRegs [(3, 9)]))) (fun t => t.pc == 0x202) = true := by decide

/-! ### Registers, arithmetic and logic -/

/-- A1. -/
theorem test_ldImm : nextHas (step (atWord 0x63AB)) (fun t => t.reg 3 == 0xAB && t.pc == 0x202) = true := by decide

/-- A2. -/
theorem test_addImm_wraps :
    nextHas (step (atWord 0x7301 (withRegs [(3, 0xFF), (15, 0x5A)]))) (fun t => t.reg 3 == 0 && t.reg 15 == 0x5A) = true := by
  decide

/-- A5. -/
theorem test_ldReg :
    nextHas (step (atWord 0x8120 (withRegs [(1, 0x11), (2, 0x22), (15, 0x5A)])))
      (fun t => t.reg 1 == 0x22 && t.reg 2 == 0x22 && t.reg 15 == 0x5A) = true := by decide

/-- A6: VF is not cleared. -/
theorem test_orReg :
    nextHas (step (atWord 0x8121 (withRegs [(1, 0xF0), (2, 0x0F), (15, 0x5A)])))
      (fun t => t.reg 1 == 0xFF && t.reg 15 == 0x5A) = true := by decide

/-- A7. -/
theorem test_andReg :
    nextHas (step (atWord 0x8122 (withRegs [(1, 0xFC), (2, 0x3F), (15, 0x5A)])))
      (fun t => t.reg 1 == 0x3C && t.reg 15 == 0x5A) = true := by decide

/-- A8. -/
theorem test_xorReg :
    nextHas (step (atWord 0x8123 (withRegs [(1, 0xFF), (2, 0x0F), (15, 0x5A)])))
      (fun t => t.reg 1 == 0xF0 && t.reg 15 == 0x5A) = true := by decide

/-- A10, A12. -/
theorem test_addReg :
    nextHas (step (atWord 0x8124 (withRegs [(1, 0xFF), (2, 0x01)]))) (fun t => t.reg 1 == 0 && t.reg 15 == 1) = true ∧
    nextHas (step (atWord 0x8124 (withRegs [(1, 0x7F), (2, 0x80), (15, 1)])))
      (fun t => t.reg 1 == 0xFF && t.reg 15 == 0) = true := by decide

/-- A33, A44: VF as destination and as operand. -/
theorem test_addReg_vf :
    nextHas (step (atWord 0x8F24 (withRegs [(15, 0x01), (2, 0x01)]))) (fun t => t.reg 15 == 0) = true ∧
    nextHas (step (atWord 0x81F4 (withRegs [(1, 0x01), (15, 0x01)])))
      (fun t => t.reg 1 == 2 && t.reg 15 == 0) = true := by decide

/-- A16, A17. -/
theorem test_subReg :
    nextHas (step (atWord 0x8125 (withRegs [(1, 0x01), (2, 0x02), (15, 1)])))
      (fun t => t.reg 1 == 0xFF && t.reg 15 == 0) = true ∧
    nextHas (step (atWord 0x8125 (withRegs [(1, 0x05), (2, 0x05)]))) (fun t => t.reg 1 == 0 && t.reg 15 == 1) = true := by
  decide

/-- A20: Vy is untouched. -/
theorem test_shr :
    nextHas (step (atWord 0x8126 (withRegs [(1, 0x81), (2, 0x33)])))
      (fun t => t.reg 1 == 0x40 && t.reg 2 == 0x33 && t.reg 15 == 1) = true := by decide

/-- A37: the flag is written last. -/
theorem test_shr_vf : nextHas (step (atWord 0x8F26 (withRegs [(15, 0x02)]))) (fun t => t.reg 15 == 0) = true := by decide

/-- A24, A27. -/
theorem test_subnReg :
    nextHas (step (atWord 0x8127 (withRegs [(1, 0x02), (2, 0x01), (15, 1)])))
      (fun t => t.reg 1 == 0xFF && t.reg 15 == 0) = true ∧
    nextHas (step (atWord 0x8127 (withRegs [(1, 0xFF), (2, 0x00)]))) (fun t => t.reg 1 == 1 && t.reg 15 == 0) = true := by
  decide

/-- A28. -/
theorem test_shl :
    nextHas (step (atWord 0x812E (withRegs [(1, 0x81), (2, 0x33)])))
      (fun t => t.reg 1 == 0x02 && t.reg 2 == 0x33 && t.reg 15 == 1) = true := by decide

/-- A40: the flag is written last. -/
theorem test_shl_vf : nextHas (step (atWord 0x8F2E (withRegs [(15, 0x40)]))) (fun t => t.reg 15 == 0) = true := by decide

/-- A52, A55: the drawn byte is the step's argument. -/
theorem test_rnd :
    nextHas (stepWith 0xA7 (atWord 0xC30F)) (fun t => t.reg 3 == 0x07) = true ∧
    nextHas (stepWith 0xFF (atWord 0xCF3C)) (fun t => t.reg 15 == 0x3C) = true := by decide

/-! ### Index register and memory -/

/-- M1. -/
theorem test_ldI : nextHas (step (atWord 0xAFFF)) (fun t => t.i == 0x0FFF) = true := by decide

/-- M3, M4. -/
theorem test_addI :
    nextHas (step (atWord 0xF31E (withRegs [(3, 0x02), (15, 0x5A)] { base with i := 0x0FFE })))
      (fun t => t.i == 0x1000 && t.reg 15 == 0x5A) = true ∧
    nextHas (step (atWord 0xF31E (withRegs [(3, 0x01)] { base with i := 0xFFFF }))) (fun t => t.i == 0) = true := by
  decide

/-- M9, M11. -/
theorem test_ldF :
    nextHas (step (atWord 0xF329 (withRegs [(3, 0x0F)]))) (fun t => t.i == 0x004B) = true ∧
    nextHas (step (atWord 0xF329 (withRegs [(3, 0xFF)]))) (fun t => t.i == 0x04FB) = true := by decide

/-- S10. -/
theorem test_ldB :
    nextHas (step (atWord 0xF333 (withRegs [(3, 234)] { base with i := 0x300 })))
      (fun t => t.mem.read 0x300 == 2 && t.mem.read 0x301 == 3 && t.mem.read 0x302 == 4 && t.i == 0x300) = true := by
  decide

/-- M18, M19. -/
theorem test_ldB_out_of_range :
    faultsAs (step (atWord 0xF333 (withRegs [(3, 255)] { base with i := 0x0FFE }))) .memOutOfRange 0x1000 = true ∧
    faultsAs (step (atWord 0xF333 (withRegs [(3, 255)] { base with i := 0xFFFF }))) .memOutOfRange 0xFFFF = true := by
  decide

/-- M21, M25: the bytes land at I up, and over the instruction stream. -/
theorem test_ldMemVx :
    nextHas (step (atWord 0xF055 (withRegs [(0, 0xAA), (1, 0xBB)] { base with i := 0x300 })))
      (fun t => t.mem.read 0x300 == 0xAA && t.mem.read 0x301 == 0) = true ∧
    nextHas (step (atWord 0xF055 (withRegs [(0, 0x12)] { base with i := 0x200 })))
      (fun t => t.mem.read 0x200 == 0x12 && t.mem.read 0x201 == 0x55) = true := by decide

/-- M23, M24. -/
theorem test_ldMemVx_edge :
    nextHas (step (atWord 0xF755 { base with i := 0x0FF8 })) (fun t => t.flt == .none) = true ∧
    faultsAs (step (atWord 0xF855 { base with i := 0x0FF8 })) .memOutOfRange 0x1000 = true := by decide

/-- M27. -/
theorem test_ldVxMem :
    nextHas (step (atWord 0xF265 (withRegs [(3, 0x77)] { base with i := 0x200 })))
      (fun t => t.reg 0 == 0xF2 && t.reg 1 == 0x65 && t.reg 2 == 0 && t.reg 3 == 0x77 && t.i == 0x200) = true := by decide

/-- M30. -/
theorem test_ldVxMem_out_of_range :
    faultsAs (step (atWord 0xF165 { base with i := 0x0FFF })) .memOutOfRange 0x1000 = true := by decide

/-! ### Display -/

/-- B17: no flag. -/
theorem test_cls :
    nextHas (step (atWord 0x00E0 (withRegs [(15, 7)] { base with fb := base.fb.toggle 3 4 })))
      (fun t => t.fb == base.fb && t.reg 15 == 7) = true := by decide

/-- B4: columns and rows wrap (row 31, then row 0). -/
theorem test_drw_wraps :
    nextHas (step (atWord 0xD122 (withMem 0x300 [0xC0, 0xC0] (withRegs [(1, 63), (2, 31)] { base with i := 0x300 }))))
      (fun t => t.fb == (((base.fb.toggle 63 31).toggle 0 31).toggle 63 0).toggle 0 0 && t.reg 15 == 0) = true := by decide

/-- B15, first step: a collision; B5: n = 0 reads nothing. -/
theorem test_drw_collision :
    nextHas (step (atWord 0xD121 (withMem 0x300 [0xC0]
        { base with i := 0x300, fb := (base.fb.toggle 0 0).toggle 1 0 })))
      (fun t => t.fb == base.fb && t.reg 15 == 1) = true ∧
    nextHas (step (atWord 0xD120 (withRegs [(15, 0x5A)] { base with i := 0xFFFF })))
      (fun t => t.fb == base.fb && t.reg 15 == 0 && t.flt == .none) = true := by decide

/-- X7. -/
theorem test_drw_out_of_range : faultsAs (step (atWord 0xD012 { base with i := 0xFFF })) .memOutOfRange 0x1000 = true := by
  decide

/-! ### Keypad, timers and the host's events -/

/-- K1, K2. -/
theorem test_skp :
    nextHas (step (atWord 0xE39E (keyDown 5 (withRegs [(3, 5)])))) (fun t => t.pc == 0x204) = true ∧
    nextHas (step (atWord 0xE39E (withRegs [(3, 5)]))) (fun t => t.pc == 0x202) = true := by decide

/-- K6. -/
theorem test_skp_index : faultsAs (step (atWord 0xE39E (withRegs [(3, 16)]))) .keyIndexOutOfRange 16 = true := by decide

/-- K3, K4. -/
theorem test_sknp :
    nextHas (step (atWord 0xE3A1 (keyDown 5 (withRegs [(3, 5)])))) (fun t => t.pc == 0x202) = true ∧
    nextHas (step (atWord 0xE3A1 (withRegs [(3, 5)]))) (fun t => t.pc == 0x204) = true := by decide

/-- K7. -/
theorem test_sknp_index : faultsAs (step (atWord 0xE3A1 (withRegs [(3, 0xFF)]))) .keyIndexOutOfRange 255 = true := by
  decide

/-- K9. -/
theorem test_ldVxK :
    nextHas (step (atWord 0xF30A (keyDown 0xC (keyDown 0x7 base)))) (fun t => t.reg 3 == 7 && t.pc == 0x202) = true := by
  decide

/-- K8. -/
theorem test_ldVxK_waits :
    nextHas (step (atWord 0xF30A (withRegs [(3, 0x99)]))) (fun t => t.reg 3 == 0x99 && t.pc == 0x200) = true := by decide

/-- K12. -/
theorem test_ldVxDt :
    nextHas (step (atWord 0xF307 { base with dt := 0x42 })) (fun t => t.reg 3 == 0x42 && t.dt == 0x42) = true := by decide

/-- K13. -/
theorem test_ldDtVx : nextHas (step (atWord 0xF315 (withRegs [(3, 0xFF)]))) (fun t => t.dt == 255) = true := by decide

/-- K14. -/
theorem test_ldStVx : nextHas (step (atWord 0xF318 (withRegs [(3, 1)]))) (fun t => t.st == 1) = true := by decide

/-- K15, K17, K20. -/
theorem test_tick :
    (tick { base with st := 1 }).2 = true ∧ (tick { base with st := 1 }).1.st = 0 ∧
    (tick { base with dt := 255 }).1.dt = 254 ∧ (tick { base with dt := 255 }).2 = false ∧
    (tick { base with st := 1, flt := ⟨.stackOverflow, 16⟩ }).2 = false := by decide

/-- K19. -/
theorem test_key_events : (keyDown 5 base).keys.get 5 = true ∧ keyUp 5 (keyDown 5 (keyDown 5 base)) = base := by decide

/-- X6, S9, with short programs: R203, R204. -/
theorem test_load :
    (hostLoad [0x12, 0x34] State.reset).pc = 0x200 ∧ (hostLoad [0x12, 0x34] State.reset).mem.read 0x201 = 0x34 ∧
    (hostLoad [] State.reset).mem = [] := by decide

/-- X9: reset leaves FAULTED. -/
theorem test_reset_event :
    nextHas (event .reset { base with flt := ⟨.stackOverflow, 16⟩ }) (fun t => t.flt == .none && t.pc == 0) = true := by
  decide

/-- K20: a step in FAULTED makes no progress. -/
theorem test_faulted_step :
    step { base with flt := ⟨.stackOverflow, 16⟩ } = .fault (.halted ⟨.stackOverflow, 16⟩) := by rfl

/-! ### Witnesses: the hypotheses of every statement that has some can be met -/

theorem witness_DecodeOfEncodeIsTheInstruction :
    (Instr.seReg 1 2 0).wellFormed true = true ∧ (Instr.seReg 1 2 7).wellFormed false = true := by decide

theorem witness_EncodeOfDecodeIsTheWord :
    decodeWith true 0x5120 = .ok (.seReg 1 2 0) ∧ decodeWith false 0x5127 = .ok (.seReg 1 2 7) := by decide

theorem witness_StepRunsTheDecodedInstruction :
    (let s := atWord 0x63AB { base with pc := 4094 }
     s.flt.cause = .noFault ∧ s.pc.toNat ≤ 4094 ∧
       decodeWord (wordOfBytes (s.mem.read s.pc.toNat) (s.mem.read (s.pc.toNat + 1))) = .ok (.ldImm 3 0xAB)) := by decide

theorem witness_FetchBeyondMemoryFaults :
    (let s : State := { base with pc := 0x0FFF }
     s.flt.cause = .noFault ∧ 4095 ≤ s.pc.toNat ∧ s.pc.toNat = 4095) ∧
    (let s : State := { base with pc := 0x10FE }
     s.flt.cause = .noFault ∧ 4095 ≤ s.pc.toNat ∧ s.pc.toNat ≠ 4095) := by decide

theorem witness_UnimplementedWordFaults :
    (let s := atWord 0x00E1
     s.flt.cause = .noFault ∧ s.pc.toNat ≤ 4094 ∧
       0x00E1 = wordOfBytes (s.mem.read s.pc.toNat) (s.mem.read (s.pc.toNat + 1))) ∧
    UnimplementedWord strictD4 0x00E1 := ⟨by decide, Or.inl (by decide)⟩

theorem witness_FaultedMachineIsStuck :
    ({ base with flt := ⟨.stackOverflow, 16⟩ } : State).flt.cause ≠ .noFault ∧ Event.tick ≠ Event.reset := by decide

theorem witness_LoadCopiesTheProgram :
    State.reset.flt.cause = .noFault ∧ State.reset.mem.wf = true ∧ (List.replicate 3584 (1 : Byte)).length ≤ 3584 :=
  ⟨rfl, rfl, by rw [List.length_replicate]⟩

theorem witness_LoadOverflowChangesNothingElse :
    State.reset.flt.cause = .noFault ∧ 3584 < (List.replicate 3585 (1 : Byte)).length :=
  ⟨rfl, by rw [List.length_replicate]; decide⟩

theorem witness_NopOnlyAdvancesPc :
    (let s : State := { base with pc := 4094 }
     s.flt.cause = .noFault ∧ s.pc.toNat ≤ 4094 ∧ s.mem.read s.pc.toNat = 0 ∧ s.mem.read (s.pc.toNat + 1) = 0) := by decide

theorem witness_CallPushesAndJumps : base.sp.toNat < 16 ∧ ({ base with sp := 15 } : State).sp.toNat < 16 := by decide

theorem witness_ReturnPopsIntoPc :
    ({ base with sp := 1 } : State).sp.toNat = (0 : Fin 16).val + 1 ∧
    ({ base with sp := 16 } : State).sp.toNat = (15 : Fin 16).val + 1 := by decide

theorem witness_StackBoundsFault :
    16 ≤ ({ base with sp := 16 } : State).sp.toNat ∧ base.sp = 0 ∧ 16 < ({ base with sp := 17 } : State).sp.toNat := by
  decide

theorem witness_CallThenReturnResumesAfterTheCall :
    ∃ s t u : State, s.sp.toNat = 15 ∧ s.sp.toNat < 16 ∧ exec (.call 0xABC) s = .next t ∧ u.sp = t.sp ∧
      ∀ k : Fin 16, k.val < t.sp.toNat → u.stack.get k = t.stack.get k :=
  ⟨{ base with sp := 15 }, _, _, by decide, by decide, rfl, rfl, fun _ _ => rfl⟩

theorem witness_PushesThenPopsRestoreTheStack : base.sp.toNat + (List.replicate 16 (7 : Word16)).length ≤ 16 := by decide

theorem witness_SelfJumpParks :
    (let s := atWord 0x1FFE { base with pc := 0x0FFE }
     s.flt.cause = .noFault ∧ s.pc.toNat = (0xFFE : Addr12).toNat ∧ (0xFFE : Addr12).toNat ≤ 4094 ∧
       wordOfBytes (s.mem.read s.pc.toNat) (s.mem.read (s.pc.toNat + 1)) = encodeNnn 0x1 0xFFE) := by decide

theorem witness_BcdStoresThreeDigits : base.mem.wf = true ∧ ({ base with i := 4093 } : State).i.toNat ≤ 4093 := by decide

theorem witness_StoreRegistersAtI :
    base.mem.wf = true ∧ ({ base with i := 0x0FF0 } : State).i.toNat + (0xF : Nibble).toNat ≤ 4095 := by decide

theorem witness_LoadRegistersFromI : ({ base with i := 0x0FFF } : State).i.toNat + (0x0 : Nibble).toNat ≤ 4095 := by decide

theorem witness_TransferBeyondMemoryFaults :
    base.mem.wf = true ∧ 4093 < ({ base with i := 4094 } : State).i.toNat ∧
    4095 < ({ base with i := 0x0FFF } : State).i.toNat + (0x1 : Nibble).toNat ∧
    4095 < ({ base with i := 0xFFFF } : State).i.toNat + (0x0 : Nibble).toNat := by decide

theorem witness_StoredBytesAreFetchedNext :
    (let s : State := { base with i := 0x202, pc := 0x202 }
     s.mem.wf = true ∧ s.i.toNat + (0x1 : Nibble).toNat ≤ 4095 ∧ s.pc.toNat = s.i.toNat + (0x0 : Nibble).toNat ∧
       (0x1 : Nibble).toNat = (0x0 : Nibble).toNat + 1 ∧ (0x1 : Nibble).toNat ≤ (0x1 : Nibble).toNat) := by decide

theorem witness_CanonicalMemoriesWithEqualReadsAreEqual :
    ∃ m m' : Memory, m ≠ [] ∧ m.wf = true ∧ m'.wf = true ∧ ∀ a, m.read a = m'.read a :=
  ⟨[(0x300, 7)], [(0x300, 7)], by decide, by decide, by decide, fun _ => rfl⟩

theorem witness_DrawXorsTheSpriteMask :
    (0x0 : Nibble).toNat = 0 ∧ ({ base with i := 0x0FF1 } : State).i.toNat + (0xF : Nibble).toNat ≤ 4096 := by decide

theorem witness_SecondIdenticalDrawRestores :
    ∃ t u : State, base.i.toNat + (0x5 : Nibble).toNat ≤ 4096 ∧ exec (.drw 1 2 5) base = .next t ∧
      u.reg 1 = base.reg 1 ∧ u.reg 2 = base.reg 2 ∧ u.i = base.i ∧ (∀ a, u.mem.read a = base.mem.read a) ∧
      ∀ px py, u.fb.pixel px py = t.fb.pixel px py := by
  cases h : exec (.drw 1 2 5) base with
  | next t =>
    have h' : exec (.drw 1 2 5) base = .next t := h
    refine ⟨t, { base with fb := t.fb }, by decide, rfl, rfl, rfl, rfl, fun _ => rfl, fun _ _ => rfl⟩
  | fault r => cases h
  | refused r => cases h

theorem witness_DrawBeyondMemoryFaults :
    (0x2 : Nibble).toNat ≠ 0 ∧ 4096 < ({ base with i := 0x0FFF } : State).i.toNat + (0x2 : Nibble).toNat := by decide

theorem witness_SkipsOnKey :
    ((withRegs [(3, 0)]).reg 3).toNat = (0 : Fin 16).val ∧ ((withRegs [(3, 15)]).reg 3).toNat = (15 : Fin 16).val := by
  decide

theorem witness_KeyIndexAboveFifteenFaults :
    15 < ((withRegs [(3, 16)]).reg 3).toNat ∧ 15 < ((withRegs [(3, 255)]).reg 3).toNat := by decide

theorem witness_KeyWaitStoresTheLowestKeyDown :
    (let s := keyDown 0xC (keyDown 0x7 base)
     s.keys.get 7 = true ∧ ∀ j : Fin 16, j < 7 → s.keys.get j = false) ∧
    ((keyDown 0x0 base).keys.get 0 = true ∧ ∀ j : Fin 16, j < 0 → (keyDown 0x0 base).keys.get j = false) := by decide

theorem witness_KeyWaitWithNoKeyRepeats :
    (let s := atWord 0xF30A { base with pc := 4094 }
     (∀ k : Fin 16, s.keys.get k = false) ∧ s.flt.cause = .noFault ∧ s.pc.toNat ≤ 4094 ∧
       wordOfBytes (s.mem.read s.pc.toNat) (s.mem.read (s.pc.toNat + 1)) = encodeXnn 0xF 3 0x0A) := by decide

theorem witness_TimerMoves : (withRegs [(3, 0xFF)]).flt.cause = .noFault := by decide

theorem witness_TickCountsDown :
    base.flt.cause = .noFault ∧ ({ base with st := 1, dt := 255 } : State).flt.cause = .noFault := by decide

theorem witness_TimersAfterManyTicks : ({ base with st := 255, dt := 1 } : State).flt.cause = .noFault := by decide

theorem witness_KeyEventsSetOneKey : base.flt.cause = .noFault ∧ (keyDown 0xF base).flt.cause = .noFault := by decide

theorem witness_StepKeepsTheInvariant : State.reset.Inv ∧ ∃ t, step State.reset = .next t := ⟨by decide, _, rfl⟩

theorem witness_EventsKeepTheInvariant :
    State.reset.Inv ∧ (∃ t, event .tick State.reset = .next t) ∧ ∃ t, event (.step 0) State.reset = .next t :=
  ⟨by decide, ⟨_, rfl⟩, ⟨_, rfl⟩⟩

theorem witness_LiveStepsAnswerAStateThatMeetsTheInvariant :
    (let s := atWord 0x00EE { base with sp := 16, i := 0xFFFF }
     s.Inv ∧ s.flt.cause = .noFault) ∧
    (let s : State := { base with pc := 0x10FE }
     s.Inv ∧ s.flt.cause = .noFault) := by decide

/-- A reachable state with a program loaded (a jump to itself at 512) and run for a step. -/
theorem witness_ReachableStatesAreSafe :
    ∃ s, Reachable s ∧ s.flt.cause = .noFault ∧ s.pc = 512 ∧ s.mem.read 512 = 0x12 ∧ s.draws = 0 ∧
      step s = .next s :=
  ⟨_, .event (.step 0) _ _ (.event (.load [0x12, 0x00]) _ _ .reset rfl) rfl, rfl, rfl, rfl, rfl, rfl⟩

theorem witness_InstructionsChangeOnlyTheirParts :
    ∃ t, base.flt.cause = .noFault ∧ exec (.ldI 0x300) base = .next t ∧ t.flt.cause = .noFault := ⟨_, rfl, rfl, rfl⟩

theorem witness_RegistersOutsideTheDestinationKeep :
    (∃ t, exec (.addReg 1 2) base = .next t) ∧ writesRegister (.addReg 1 2) 3 = false := ⟨⟨_, rfl⟩, rfl⟩

theorem witness_StepLeavesKeypadAndTimers :
    (∃ t, step (atWord 0xF315 (withRegs [(3, 7)])) = .next t ∧ t.dt = 7) ∧
    (∃ t, step (atWord 0xF318 (withRegs [(3, 7)])) = .next t ∧ t.st = 7) := ⟨⟨_, rfl, rfl⟩, ⟨_, rfl, rfl⟩⟩

theorem witness_StaleStackEntriesAreNotObserved :
    SameButStaleStack base { base with stack := base.stack.set 0 5 } ∧ base ≠ { base with stack := base.stack.set 0 5 } :=
  ⟨⟨rfl, fun k hk => absurd hk (Nat.not_lt_zero _)⟩, by decide⟩

end Sys2Proof.Tests
end

section
/-!
SUPPORT. The family of 10_state.md: what an executed instruction can do to the state, said once (`Effect`,
`exec_performs`), and from it the machine's invariant, the frames of the registers, the keypad and the timers, and, from
`exec_withHidden`, that no program observes ST or the stack entries at SP and above.
-/
namespace Sys2Proof.Machine

/-! ### CALL and RET, case by case of SP (10_state.md R28, R29) -/

/-- SP is 0, one above the index of an entry, or beyond the stack. -/
theorem sp_cases (s : State) : s.sp = 0 ∨ (∃ k : Fin 16, s.sp.toNat = k.val + 1) ∨ 16 < s.sp.toNat := by
  by_cases h0 : s.sp.toNat = 0
  · exact .inl (BitVec.eq_of_toNat_eq h0)
  · by_cases h : s.sp.toNat ≤ 16
    · exact .inr (.inl ⟨⟨s.sp.toNat - 1, by omega⟩, by simp only; omega⟩)
    · exact .inr (.inr (by omega))

/-- Pop where SP is one above the entry `k`. -/
theorem pop_entry {s : State} {k : Fin 16} (h : s.sp.toNat = k.val + 1) :
    pop s = .value (s.stack.get k) { s with sp := s.sp - 1 } := by
  have hne : s.sp ≠ 0 := by
    intro e
    rw [e] at h
    exact absurd h (Nat.succ_ne_zero k.val).symm
  obtain ⟨j, hj, hp⟩ := pop_value s hne (by omega)
  have hjk : j = k := Fin.ext (by omega)
  rw [hp, hjk]

/-- SP after a pop. -/
theorem sp_sub_one_toNat {p : Word16} {n : Nat} (h : p.toNat = n + 1) : (p - 1).toNat = n := by
  have h1 : (1 : Word16).toNat = 1 := rfl
  rw [BitVec.toNat_sub_of_le (by rw [BitVec.le_def]; omega), h, h1]
  rfl

/-- SP after a push. -/
theorem sp_add_one_toNat {p : Word16} (h : p.toNat < 16) : (p + 1).toNat = p.toNat + 1 := by
  have h1 : (1 : Word16).toNat = 1 := rfl
  rw [BitVec.toNat_add_of_lt (by omega)]
  rfl

theorem execRet_underflow {s : State} (h : s.sp = 0) : execRet s = .next (raiseInStep .stackUnderflow 0 s) := by
  simp [execRet, pop_underflow s h]

theorem execRet_entry {s : State} {k : Fin 16} (h : s.sp.toNat = k.val + 1) :
    execRet s = .next (State.setPc { s with sp := s.sp - 1 } (s.stack.get k)) := by
  simp [execRet, pop_entry h]

theorem execRet_noEntry {s : State} (h : 16 < s.sp.toNat) : execRet s = .fault (.stackIndexOutOfRange s.sp) := by
  simp [execRet, pop_noEntry s h]

theorem execCall_fits (nnn : Addr12) {s : State} (h : s.sp.toNat < 16) :
    execCall nnn s = .next ((s.pushed s.pc).setPc (targetOf nnn)) := by
  simp [execCall, push_eq, h]

theorem execCall_overflow (nnn : Addr12) {s : State} (h : ¬ s.sp.toNat < 16) :
    execCall nnn s = .next (raiseInStep .stackOverflow s.sp.toNat s) := by
  simp [execCall, push_eq, h]

/-! ### What an executed instruction can do -/

/-- The register file `v` differs from that of `s` only in registers that `i` may write (R21). -/
def KeepsOtherRegs (i : Instr) (s : State) (v : Regs) : Prop :=
  ∀ r, writesRegister i r = false → v.get r.toFin = s.reg r

/-- The next states that the instruction `i`, executed in `s` with PC advanced already, may answer: one constructor per
kind of change, with what claims about the whole machine need to know of it. -/
inductive Effect (i : Instr) (s : State) : State → Prop where
  /-- Registers, I, the framebuffer and the count of free values. -/
  | data (v : Regs) (ix : Word16) (fb : Framebuffer) (n : Nat) (hv : KeepsOtherRegs i s v) :
      Effect i s { s with v := v, i := ix, fb := fb, draws := n }
  /-- Fx15 (45_keypad_timers.md R164). -/
  | setDt (x : Nibble) (hi : i = .ldDtVx x) : Effect i s { s with dt := s.reg x }
  /-- Fx18 (R165). -/
  | setSt (x : Nibble) (hi : i = .ldStVx x) : Effect i s { s with st := s.reg x }
  /-- A jump, its target within the bound of R25. -/
  | jump (p : Word16) (hp : p.toNat ≤ 0x10FE) : Effect i s (s.setPc p)
  /-- A skip (41_control_flow.md R109). -/
  | skip : Effect i s s.advance
  /-- A busy-poll (R162). -/
  | wait : Effect i s s.rewind
  /-- CALL below the stack's depth (R103). -/
  | call (nnn : Addr12) (hsp : s.sp.toNat < 16) : Effect i s ((s.pushed s.pc).setPc (targetOf nnn))
  /-- RET to the entry `k` (R101). -/
  | ret (k : Fin 16) (hk : s.sp.toNat = k.val + 1) :
      Effect i s (State.setPc { s with sp := s.sp - 1 } (s.stack.get k))
  /-- A store (43_index_memory.md R143, R144). -/
  | store (m : Memory) (hm : s.mem.wf = true → m.wf = true) : Effect i s { s with mem := m }
  /-- A fault of the spec, part of a transfer having happened (60_exceptions.md R178). -/
  | fault (c : Cause) (n : Nat) (v : Regs) (m : Memory) (hc : c ≠ .noFault) (hv : KeepsOtherRegs i s v)
      (hm : s.mem.wf = true → m.wf = true) : Effect i s (raiseInStep c n { s with v := v, mem := m })

/-- The outcome `r` is a next state that `i` may answer in `s`, or the stop that only SP above 16 brings about. -/
def Performs (i : Instr) (s : State) (r : Result) : Prop :=
  match r with
  | .next t => Effect i s t
  | .fault _ => 16 < s.sp.toNat
  | .refused _ => False

section
variable {i : Instr} {s : State}

theorem keepsOtherRegs_refl : KeepsOtherRegs i s s.v := fun _ _ => rfl

theorem keepsOtherRegs_setReg {x : Nibble} (b : Byte) (hx : writesRegister i x = true) :
    KeepsOtherRegs i s (s.setReg x b).v := by
  intro r hr
  have hne : r ≠ x := by
    rintro rfl
    rw [hx] at hr
    cases hr
  exact (reg_setReg s x b r).trans (if_neg hne)

theorem keepsOtherRegs_setRegFlag {x : Nibble} (b f : Byte) (hx : writesRegister i x = true)
    (hf : writesRegister i vf = true) : KeepsOtherRegs i s (s.setRegFlag x b f).v := by
  intro r hr
  have hne : ∀ z, writesRegister i z = true → r ≠ z := by
    rintro z hz rfl
    rw [hz] at hr
    cases hr
  exact (reg_setRegFlag s x b f r).trans ((if_neg (hne vf hf)).trans (if_neg (hne x hx)))

/-- A write of registers alone. -/
theorem Effect.regs {v : Regs} (hv : KeepsOtherRegs i s v) : Effect i s { s with v := v } :=
  .data v s.i s.fb s.draws hv

/-- A write of I alone. -/
theorem Effect.index (ix : Word16) : Effect i s { s with i := ix } := .data s.v ix s.fb s.draws keepsOtherRegs_refl

/-- No change at all. -/
theorem Effect.refl : Effect i s s := Effect.index s.i

theorem Effect.skipIf (d : Bool) : Effect i s (s.skipIf d) := by
  cases d
  · exact .refl
  · exact .skip

/-- A fault raised before any other effect. -/
theorem Effect.raised {c : Cause} (hc : c ≠ .noFault) (n : Nat) : Effect i s (raiseInStep c n s) :=
  .fault c n s.v s.mem hc keepsOtherRegs_refl id

end

/-! ### Every instruction performs one of these -/

section
variable (i : Instr) (s : State)

theorem execRet_performs : Performs i s (execRet s) := by
  rcases sp_cases s with h | ⟨k, hk⟩ | h
  · rw [execRet_underflow h]
    exact .raised (by decide) 0
  · rw [execRet_entry hk]
    exact .ret k hk
  · rw [execRet_noEntry h]
    exact h

theorem execCall_performs (nnn : Addr12) : Performs i s (execCall nnn s) := by
  by_cases h : s.sp.toNat < 16
  · rw [execCall_fits nnn h]
    exact .call nnn h
  · rw [execCall_overflow nnn h]
    exact .raised (by decide) _

theorem targetOf_toNat_lt (nnn : Addr12) : (targetOf nnn).toNat < 4096 := by
  rw [targetOf, zextAddr, BitVec.toNat_setWidth_of_le (by decide)]
  exact nnn.isLt

/-- The sum of R104 is at most 255 + 4095, the bound of R25. -/
theorem targetV0_toNat_le (nnn : Addr12) : (targetV0 nnn s).toNat ≤ 0x10FE := by
  have hb := (s.reg 0).isLt
  have ha := nnn.isLt
  rw [targetV0, zextByte, zextAddr, BitVec.toNat_add, BitVec.toNat_setWidth_of_le (by decide),
    BitVec.toNat_setWidth_of_le (by decide)]
  omega

theorem storeAtI_performs (bs : List Byte) : Performs i s (storeAtI bs s) := by
  rcases storeAtI_cases bs s with ⟨m, hm, h⟩ | ⟨a, -, h⟩
  · rw [h]
    exact .store m fun hwf => memWrites_wf hwf hm
  · rw [h]
    exact .fault _ a s.v _ (by decide) keepsOtherRegs_refl fun hwf => memWritesSome_wf _ hwf _ 0 bs

/-- Fx65 writes V0 to Vx at most, whether its transfer fits or faults. -/
theorem execLdVxMem_performs (x : Nibble) : Performs (.ldVxMem x) s (execLdVxMem x s) := by
  have hout : ∀ r : Nibble, writesRegister (.ldVxMem x) r = false →
      ¬ (0 ≤ r.toFin.val ∧ r.toFin.val < 0 + (x.toNat + 1)) := by
    intro r hr
    have hlt : ¬ r.toNat ≤ x.toNat := of_decide_eq_false hr
    have hval : r.toFin.val = r.toNat := rfl
    omega
  by_cases h : s.i.toNat + (x.toNat + 1) ≤ Config.memSize
  · rw [execLdVxMem, loadFromI_fits _ s (.inr h)]
    refine .regs fun r hr => ?_
    have hlen : (bytesAtI s (x.toNat + 1)).length = x.toNat + 1 := by simp [bytesAtI]
    rw [loadRegs_get, hlen, if_neg (hout r hr)]
    rfl
  · rw [execLdVxMem, loadFromI_faults _ s (Nat.succ_ne_zero _) (by omega)]
    exact .fault _ _ _ s.mem (by decide) (fun r hr => loadRegsSome_get _ _ _ _ _ _ _ (hout r hr)) id

theorem execDrw_performs (x y n : Nibble) : Performs (.drw x y n) s (execDrw x y n s) := by
  unfold execDrw
  split
  · exact .raised (by decide) _
  · exact .data _ s.i _ s.draws (keepsOtherRegs_setReg _ rfl)

theorem skipOnKey_performs (x : Nibble) (down : Bool) : Performs i s (skipOnKey x down s) := by
  unfold skipOnKey
  split
  · exact .skipIf _
  · exact .raised (by decide) _

theorem execLdVxK_performs (x : Nibble) : Performs (.ldVxK x) s (execLdVxK x s) := by
  unfold execLdVxK
  split
  · exact .regs (keepsOtherRegs_setReg _ (beq_self_eq_true x))
  · exact .wait

theorem execRndWith_performs (r : Byte) (x : Nibble) (nn : Byte) : Performs (.rnd x nn) s (execRndWith r x nn s) :=
  .data _ s.i s.fb _ (keepsOtherRegs_setReg _ (beq_self_eq_true x))

/-- A flag-producing instruction of the ALU (42_alu.md R133). -/
theorem setRegFlag_performs {i : Instr} {s : State} {x : Nibble} (b f : Byte)
    (hw : ∀ r, writesRegister i r = (r == x || r == 0xF)) : Performs i s (.next (s.setRegFlag x b f)) :=
  .regs (keepsOtherRegs_setRegFlag b f (by simp [hw]) (by simp [hw, vf]))

/-- A register write without a flag. -/
theorem setReg_performs {i : Instr} {s : State} {x : Nibble} (b : Byte)
    (hw : ∀ r, writesRegister i r = (r == x)) : Performs i s (.next (s.setReg x b)) :=
  .regs (keepsOtherRegs_setReg b (by simp [hw]))

end

/-- Everything that executing an instruction can do. -/
theorem exec_performs (i : Instr) (s : State) : Performs i s (exec i s) :=
  match i with
  | .nop => Effect.refl
  | .cls => Effect.data s.v s.i .clear s.draws keepsOtherRegs_refl
  | .ret => execRet_performs _ s
  | .jp nnn => Effect.jump _ (by have := targetOf_toNat_lt nnn; omega)
  | .call nnn => execCall_performs _ s nnn
  | .seImm _ _ | .sneImm _ _ | .seReg _ _ _ | .sneReg _ _ _ => Effect.skipIf _
  | .ldImm _ _ | .addImm _ _ | .ldReg _ _ | .orReg _ _ | .andReg _ _ | .xorReg _ _ | .ldVxDt _ =>
    setReg_performs _ fun _ => rfl
  | .addReg _ _ | .subReg _ _ | .shr _ _ | .subnReg _ _ | .shl _ _ => setRegFlag_performs _ _ fun _ => rfl
  | .ldI _ | .addI _ | .ldF _ => Effect.index _
  | .jpV0 nnn => Effect.jump _ (targetV0_toNat_le s nnn)
  | .rnd x nn => execRndWith_performs s _ x nn
  | .drw x y n => execDrw_performs s x y n
  | .skp x => skipOnKey_performs _ s x true
  | .sknp x => skipOnKey_performs _ s x false
  | .ldVxK x => execLdVxK_performs s x
  | .ldDtVx x => Effect.setDt x rfl
  | .ldStVx x => Effect.setSt x rfl
  | .ldB _ | .ldMemVx _ => storeAtI_performs _ s _
  | .ldVxMem x => execLdVxMem_performs s x

/-- The same with the drawn byte given (40_step_cycle.md R90). -/
theorem execWith_performs (r : Byte) (i : Instr) (s : State) : Performs i s (execWith r i s) := by
  unfold execWith
  split
  · exact execRndWith_performs s r _ _
  · exact exec_performs _ s

theorem effect_of_performs {i : Instr} {s t : State} {r : Result} (hr : Performs i s r) (h : r = .next t) :
    Effect i s t := by
  subst h
  exact hr

end Sys2Proof.Machine
end

section
/-!
SUPPORT. The invariant of 10_state.md (R25, R27, R29): kept by every effect of an instruction, so by every step and every
event of the host, and no stop of the model lies behind it.
-/
namespace Sys2Proof.Machine

/-! ### The invariant under each kind of change -/

section
variable {s : State}

theorem inv_setPc (hs : s.Inv) {p : Word16} (hp : p.toNat ≤ 0x10FE) : (s.setPc p).Inv := by
  obtain ⟨hmem, hsp, -, hstack, hflt⟩ := hs
  exact ⟨hmem, hsp, hp, hstack, hflt⟩

theorem inv_withMem (hs : s.Inv) {m : Memory} (hm : m.wf = true) : State.Inv { s with mem := m } := by
  obtain ⟨-, hsp, hpc, hstack, hflt⟩ := hs
  exact ⟨hm, hsp, hpc, hstack, hflt⟩

theorem inv_raise (hs : s.Inv) {c : Cause} (hc : c ≠ .noFault) (n : Nat) : (raise c n s).Inv := by
  obtain ⟨hmem, hsp, hpc, hstack, -⟩ := hs
  exact ⟨hmem, hsp, hpc, hstack, fun h => absurd h hc⟩

theorem inv_pushed (hs : s.Inv) {p : Word16} (hp : p.toNat ≤ 4096) (hlt : s.sp.toNat < 16) : (s.pushed p).Inv := by
  obtain ⟨hmem, -, hpc, hstack, hflt⟩ := hs
  refine ⟨hmem, ?_, hpc, fun k => ?_, hflt⟩
  · rw [pushed_sp, sp_add_one_toNat hlt]
    exact hlt
  · rw [pushed_stack_get]
    split
    · exact hp
    · exact hstack k

theorem inv_popped (hs : s.Inv) {k : Fin 16} (hk : s.sp.toNat = k.val + 1) : State.Inv { s with sp := s.sp - 1 } := by
  obtain ⟨hmem, -, hpc, hstack, hflt⟩ := hs
  refine ⟨hmem, ?_, hpc, hstack, hflt⟩
  have hsp : (s.sp - 1).toNat = k.val := sp_sub_one_toNat hk
  have := k.isLt
  simp only
  omega

end

/-- An instruction about to run: the invariant, with PC at a + 2 for an address a that was fetched from. -/
structure Executing (s : State) : Prop where
  inv : s.Inv
  two_le_pc : 2 ≤ s.pc.toNat
  pc_le : s.pc.toNat ≤ 4096

section
variable {s : State}

/-- A fetch that answers a word read two bytes of memory. -/
theorem pc_le_of_fetch {w : Word16} (h : s.fetch = .ok w) : s.pc.toNat ≤ 4094 := by
  by_contra hpc
  rw [fetch_error s (by omega)] at h
  cases h

/-- The advance after a fetch does not wrap (40_step_cycle.md R92). -/
theorem executing_advance (hs : s.Inv) {w : Word16} (h : s.fetch = .ok w) : Executing s.advance := by
  have hpc := pc_le_of_fetch h
  have hadv : (s.pc + 2).toNat = s.pc.toNat + 2 := by bv_omega
  refine ⟨inv_setPc hs ?_, ?_, ?_⟩
  · omega
  · rw [advance_pc]
    omega
  · rw [advance_pc]
    omega

theorem Executing.advance_inv (hs : Executing s) : s.advance.Inv := by
  have hpc := hs.pc_le
  exact inv_setPc hs.inv (by bv_omega)

theorem Executing.rewind_inv (hs : Executing s) : s.rewind.Inv := by
  have hlow := hs.two_le_pc
  have hpc := hs.pc_le
  exact inv_setPc hs.inv (by bv_omega)

/-- Both values of PC that R178 allows keep the invariant. -/
theorem Executing.raiseInStep_inv (hs : Executing s) {c : Cause} (hc : c ≠ .noFault) (n : Nat) :
    (raiseInStep c n s).Inv := by
  unfold raiseInStep
  cases Config.faultPcAdvanced s.draws
  · exact inv_raise (s := { s.rewind with draws := s.draws + 1 }) hs.rewind_inv hc n
  · exact inv_raise (s := { s with draws := s.draws + 1 }) hs.inv hc n

theorem Executing.withMem (hs : Executing s) {m : Memory} (hm : m.wf = true) : Executing { s with mem := m } :=
  ⟨inv_withMem hs.inv hm, hs.two_le_pc, hs.pc_le⟩

theorem Executing.withRegs (hs : Executing s) (v : Regs) : Executing { s with v := v } :=
  ⟨hs.inv, hs.two_le_pc, hs.pc_le⟩

/-- Every effect of an instruction keeps the invariant. -/
theorem effect_inv {i : Instr} {t : State} (hs : Executing s) (h : Effect i s t) : t.Inv := by
  have hmem : s.mem.wf = true := hs.inv.1
  cases h with
  | data v ix fb n hv => exact hs.inv
  | setDt x hi => exact hs.inv
  | setSt x hi => exact hs.inv
  | jump p hp => exact inv_setPc hs.inv hp
  | skip => exact hs.advance_inv
  | wait => exact hs.rewind_inv
  | call nnn hsp =>
    have htarget := targetOf_toNat_lt nnn
    exact inv_setPc (inv_pushed hs.inv hs.pc_le hsp) (by omega)
  | ret k hk =>
    obtain ⟨-, -, -, hstack, -⟩ := hs.inv
    exact inv_setPc (inv_popped hs.inv hk) ((hstack k).trans (by omega))
  | store m hm => exact inv_withMem hs.inv (hm hmem)
  | fault c n v m hc hv hm => exact ((hs.withRegs v).withMem (hm hmem)).raiseInStep_inv hc n

end

/-! ### The step and the events -/

section
variable {run : Instr → State → Result} {s : State}

theorem stepBy_faulted (hf : s.faulted = true) : stepBy run s = .fault (.halted s.flt) := if_pos hf

theorem stepBy_fetchError (hf : s.faulted = false) {a : Nat} (ha : s.fetch = .error a) :
    stepBy run s = .next (raise .memOutOfRange a s) := by
  simp [stepBy, hf, ha, fetchFault]

theorem stepBy_unimplemented (hf : s.faulted = false) {w : Word16} (hw : s.fetch = .ok w) {e : DecodeError}
    (he : decodeWord w = .error e) :
    stepBy run s = .next (raiseInStep .unimplementedInstruction w.toNat s.advance) := by
  simp [stepBy, hf, hw, he, unimplemented]

end

/-- The outcome is a next state that meets the invariant. -/
def AnswersInv (r : Result) : Prop := ∃ t, r = .next t ∧ t.Inv

theorem answersInv_of_performs {i : Instr} {s : State} (hs : Executing s) {r : Result} (h : Performs i s r) :
    AnswersInv r := by
  cases r with
  | next t => exact ⟨t, rfl, effect_inv hs h⟩
  | fault f =>
    obtain ⟨-, hsp, -⟩ := hs.inv
    exact absurd hsp (Nat.not_le.mpr h)
  | refused e => exact h.elim

section
variable {run : Instr → State → Result} (hrun : ∀ i s, Performs i s (run i s)) {s : State} (hs : s.Inv)
include hrun hs

/-- A live step answers a next state that meets the invariant: the fetch, the decoder and the instruction may each raise a
fault of the spec, which is a next state too (60_exceptions.md R177). -/
theorem stepBy_answersInv (hf : s.faulted = false) : AnswersInv (stepBy run s) := by
  cases hw : s.fetch with
  | error a => exact ⟨_, stepBy_fetchError hf hw, inv_raise hs (by decide) a⟩
  | ok w =>
    have hadv : Executing s.advance := executing_advance hs hw
    cases hi : decodeWord w with
    | error e => exact ⟨_, stepBy_unimplemented hf hw hi, hadv.raiseInStep_inv (by decide) w.toNat⟩
    | ok i =>
      rw [stepBy_decoded hf hw hi]
      exact answersInv_of_performs hadv (hrun i s.advance)

theorem stepBy_keepsInv {t : State} (h : stepBy run s = .next t) : t.Inv := by
  obtain ⟨hf, -⟩ := stepBy_next h
  obtain ⟨u, hu, hinv⟩ := stepBy_answersInv hrun hs hf
  rw [hu] at h
  cases h
  exact hinv

end

theorem inv_hostLoad {s : State} (hs : s.Inv) (bytes : List Byte) : (hostLoad bytes s).Inv := by
  have hmem : s.mem.wf = true := hs.1
  unfold hostLoad
  split
  · exact hs
  · split
    · exact inv_raise hs (by decide) _
    · exact inv_setPc (inv_withMem hs (copyBytes_wf hmem _ bytes (.inr (by omega)))) (by decide)

theorem inv_tick {s : State} (hs : s.Inv) : (tick s).1.Inv := by
  unfold tick
  split
  · exact hs
  · exact hs

theorem inv_setKey {s : State} (hs : s.Inv) (k : Nibble) (down : Bool) : (setKey k down s).Inv := by
  unfold setKey
  split
  · exact hs
  · exact hs

/-- An event that answers a next state did what it does in a machine that is not FAULTED. -/
theorem eventLive_of_event {e : Event} {s t : State} (h : event e s = .next t) : eventLive e s = .next t := by
  unfold event at h
  split at h
  · cases h
  · exact h

/-- Settles O51: the stack of reset holds zeros, and the other parts are fixed values. -/
theorem invariantAtReset : Obligations.InvariantAtReset := by
  unfold Obligations.InvariantAtReset
  exact ⟨reset_mem_wf, by decide, by decide, by decide, fun _ => rfl⟩

/-- Settles O52: every effect of an instruction keeps the invariant, and so do the faults of fetch and decode. -/
theorem stepKeepsTheInvariant : Obligations.StepKeepsTheInvariant := by
  unfold Obligations.StepKeepsTheInvariant
  intro s t hs h
  exact stepBy_keepsInv exec_performs hs h

/-- Settles O53, event by event. -/
theorem eventsKeepTheInvariant : Obligations.EventsKeepTheInvariant := by
  unfold Obligations.EventsKeepTheInvariant
  intro e s t hs h
  have hlive := eventLive_of_event h
  cases e with
  | step r => exact stepBy_keepsInv (execWith_performs r) hs hlive
  | reset => cases hlive; exact invariantAtReset
  | load bytes => cases hlive; exact inv_hostLoad hs bytes
  | tick => cases hlive; exact inv_tick hs
  | keyDown k => cases hlive; exact inv_setKey hs k true
  | keyUp k => cases hlive; exact inv_setKey hs k false

/-- Settles O60: the one stop of an instruction needs SP above 16, which the invariant excludes. -/
theorem liveStepsAnswerAStateThatMeetsTheInvariant :
    Obligations.LiveStepsAnswerAStateThatMeetsTheInvariant := by
  unfold Obligations.LiveStepsAnswerAStateThatMeetsTheInvariant
  intro s hs hlive
  exact stepBy_answersInv exec_performs hs (by simp [State.faulted, hlive])

/-- Settles O54: the invariant by induction over the events, the next state by O60. -/
theorem reachableStatesAreSafe : Obligations.ReachableStatesAreSafe := by
  unfold Obligations.ReachableStatesAreSafe
  intro s hreach
  have hinv : s.Inv := by
    induction hreach with
    | reset => exact invariantAtReset
    | event e s t _ he ih => exact eventsKeepTheInvariant e s t ih he
  refine ⟨hinv, fun hlive => ?_⟩
  obtain ⟨t, ht, -⟩ := liveStepsAnswerAStateThatMeetsTheInvariant s hinv hlive
  exact ⟨t, ht⟩

end Sys2Proof.Machine
end

section
/-!
SUPPORT. The frames of the registers (10_state.md R20, R21) and of the keypad and the timers (R30 to R32), read off the
effects of an instruction; for the timers, the word that an instruction was decoded from (30_encoding.md R71, R74).
-/
namespace Sys2Proof

/-! ### The word of a decoded instruction -/

section
variable {w : Word16} {d : Nibble}

/-- A word is its family nibble and nnn. -/
theorem encodeNnn_fields (h : nib1 w = d) : encodeNnn d (fieldNnn w) = w := by
  subst h
  apply BitVec.eq_of_toNat_eq
  rw [encodeNnn_toNat, nib1_toNat, fieldNnn_toNat]
  omega

/-- A word is its family nibble, x and nn. -/
theorem encodeXnn_fields (h : nib1 w = d) : encodeXnn d (nib2 w) (fieldNn w) = w := by
  subst h
  apply BitVec.eq_of_toNat_eq
  rw [encodeXnn_toNat, nib1_toNat, nib2_toNat, fieldNn_toNat]
  omega

/-- A word is its four nibbles. -/
theorem wordOfNibbles_fields (h : nib1 w = d) : wordOfNibbles d (nib2 w) (nib3 w) (nib4 w) = w := by
  subst h
  apply BitVec.eq_of_toNat_eq
  rw [wordOfNibbles_toNat, nib1_toNat, nib2_toNat, nib3_toNat, nib4_toNat]
  omega

end

section
variable {w : Word16} {x y d4 : Nibble} {nn : Byte} {i : Instr}

theorem encode_of_decodeFamily0 (h : decodeFamily0 w = some i) : encode i = w := by
  unfold decodeFamily0 at h
  split_ifs at h with h1 h2 h3 <;> cases h
  · exact h1.symm
  · exact h2.symm
  · exact h3.symm

theorem encode_of_decodeFamily8 (h : decodeFamily8 x y d4 = some i) : encode i = wordOfNibbles 0x8 x y d4 := by
  unfold decodeFamily8 at h
  split at h <;> cases h <;> rfl

theorem encode_of_decodeFamilyE (h : decodeFamilyE x nn = some i) : encode i = encodeXnn 0xE x nn := by
  unfold decodeFamilyE at h
  split_ifs at h with h1 h2 <;> cases h <;> subst nn <;> rfl

theorem encode_of_decodeFamilyF (h : decodeFamilyF x nn = some i) : encode i = encodeXnn 0xF x nn := by
  unfold decodeFamilyF at h
  split_ifs at h <;> cases h <;> subst nn <;> rfl

theorem decodeSkipReg_eq {strict : Bool} {j : Instr} (h : decodeSkipReg strict j = some i) : j = i := by
  unfold decodeSkipReg at h
  split_ifs at h
  exact Option.some.inj h

/-- The row that a word matches encodes back to the word, family by family. -/
theorem encode_of_decodeRow {strict : Bool} (h : decodeRow strict w = some i) : encode i = w := by
  unfold decodeRow at h
  split at h <;> rename_i hd
  · exact encode_of_decodeFamily0 h
  · cases h; exact encodeNnn_fields hd
  · cases h; exact encodeNnn_fields hd
  · cases h; exact encodeXnn_fields hd
  · cases h; exact encodeXnn_fields hd
  · cases decodeSkipReg_eq h; exact wordOfNibbles_fields hd
  · cases h; exact encodeXnn_fields hd
  · cases h; exact encodeXnn_fields hd
  · rw [encode_of_decodeFamily8 h]; exact wordOfNibbles_fields hd
  · cases decodeSkipReg_eq h; exact wordOfNibbles_fields hd
  · cases h; exact encodeNnn_fields hd
  · cases h; exact encodeNnn_fields hd
  · cases h; exact encodeXnn_fields hd
  · cases h; exact wordOfNibbles_fields hd
  · rw [encode_of_decodeFamilyE h]; exact encodeXnn_fields hd
  · rw [encode_of_decodeFamilyF h]; exact encodeXnn_fields hd
  · cases h

theorem encode_of_decodeWord (h : decodeWord w = .ok i) : encode i = w := by
  unfold decodeWord decodeWith at h
  split at h
  · cases h
    exact encode_of_decodeRow ‹_›
  · cases h

end

end Sys2Proof

namespace Sys2Proof.Machine

/-! ### What an effect leaves unchanged -/

section
variable {i : Instr} {s t : State} (h : Effect i s t)
include h

theorem effect_reg {r : Nibble} (hr : writesRegister i r = false) : t.reg r = s.reg r := by
  cases h with
  | data v ix fb n hv => exact hv r hr
  | fault c n v m hc hv hm => exact (raiseInStep_reg _ c n r).trans (hv r hr)
  | setDt | setSt | jump | skip | wait | call | ret | store => rfl

theorem effect_keys : t.keys = s.keys := by
  cases h with
  | fault c n v m => exact raiseInStep_keys _ c n
  | data | setDt | setSt | jump | skip | wait | call | ret | store => rfl

/-- DT is kept, or moved to by Fx15. -/
theorem effect_dt : t.dt = s.dt ∨ ∃ x, i = .ldDtVx x ∧ t.dt = s.reg x := by
  cases h with
  | setDt x hi => exact .inr ⟨x, hi, rfl⟩
  | fault c n v m => exact .inl (raiseInStep_dt _ c n)
  | data | setSt | jump | skip | wait | call | ret | store => exact .inl rfl

/-- ST is kept, or moved to by Fx18. -/
theorem effect_st : t.st = s.st ∨ ∃ x, i = .ldStVx x ∧ t.st = s.reg x := by
  cases h with
  | setSt x hi => exact .inr ⟨x, hi, rfl⟩
  | fault c n v m => exact .inl (raiseInStep_st _ c n)
  | data | setDt | jump | skip | wait | call | ret | store => exact .inl rfl

end

/-- Settles O56: every effect keeps the registers that the instruction may not write. -/
theorem registersOutsideTheDestinationKeep : Obligations.RegistersOutsideTheDestinationKeep := by
  unfold Obligations.RegistersOutsideTheDestinationKeep
  intro i r s t h hr
  exact effect_reg (effect_of_performs (exec_performs i s) h) hr

/-- Settles O57: the faults of fetch and decode keep the keypad and the timers, and of the instructions Fx15 and Fx18 alone
write a timer. -/
theorem stepLeavesKeypadAndTimers : Obligations.StepLeavesKeypadAndTimers := by
  unfold Obligations.StepLeavesKeypadAndTimers
  intro s t h
  obtain ⟨-, ⟨a, -, rfl⟩ | ⟨w, e, -, -, rfl⟩ | ⟨w, i, hw, hi, hrun⟩⟩ := stepBy_next h
  · exact ⟨fun _ => rfl, .inl rfl, .inl rfl⟩
  · exact ⟨fun _ => by rw [raiseInStep_keys, advance_keys], .inl (by rw [raiseInStep_dt, advance_dt]),
      .inl (by rw [raiseInStep_st, advance_st])⟩
  · have heff := effect_of_performs (exec_performs i s.advance) hrun
    have hword : s.fetch = .ok (encode i) := by rw [hw, encode_of_decodeWord hi]
    refine ⟨fun k => by rw [effect_keys heff, advance_keys], ?_, ?_⟩
    · refine (effect_dt heff).imp_right ?_
      rintro ⟨x, rfl, hx⟩
      exact ⟨x, hword, hx⟩
    · refine (effect_st heff).imp_right ?_
      rintro ⟨x, rfl, hx⟩
      exact ⟨x, hword, hx⟩

end Sys2Proof.Machine
end

section
/-!
SUPPORT. The stack as a whole (10_state.md R27 to R29): runs of pushes and pops, and that nothing observes ST or the
entries at SP and above.
-/
namespace Sys2Proof.Machine

/-! ### Runs of pushes and pops -/

/-- A frame for states that differ in the stack alone. -/
theorem keepsAllBut_of_sameButStaleStack {s t : State} (h : SameButStaleStack s t) : KeepsAllBut [.stack] s t := by
  obtain ⟨ht, -⟩ := h
  rw [← ht]
  intro q hq
  cases q with
  | stack => exact absurd (List.mem_singleton.mpr rfl) hq
  | v | i | pc | sp | dt | st | keys | fb | mem | flt | draws => exact keepsAllBut_refl s _ _ hq

/-- A pop after `n` pops is the last of `n + 1` pops. -/
theorem popAll_snoc {n : Nat} {vs : List Word16} {v : Word16} {s t u : State} (h : popAll n s = some (vs, t))
    (hp : pop t = .value v u) : popAll (n + 1) s = some (vs ++ [v], u) := by
  induction n generalizing s vs with
  | zero =>
    cases h
    simp [popAll, hp]
  | succ n ih =>
    unfold popAll at h
    split at h
    · rename_i hfirst
      split at h
      · rename_i hrest
        cases h
        rw [popAll, hfirst]
        simp [ih hrest]
      · cases h
    · cases h

/-- The pop that undoes a push: the state `u` is as right after the push, but for entries above the one pushed. -/
theorem pop_of_sameButStaleStack_pushed {s u : State} {v : Word16} (hsp : s.sp.toNat < 16)
    (h : SameButStaleStack (s.pushed v) u) : ∃ u', pop u = .value v u' ∧ SameButStaleStack s u' := by
  obtain ⟨hu, hk⟩ := h
  have husp : u.sp = s.sp + 1 := by rw [← hu]; rfl
  have hadd : (s.sp + 1).toNat = s.sp.toNat + 1 := sp_add_one_toNat hsp
  have hpop := pop_entry (s := u) (k := ⟨s.sp.toNat, hsp⟩) (by rw [husp, hadd])
  have htop : u.stack.get ⟨s.sp.toNat, hsp⟩ = v := by
    rw [hk _ (by rw [pushed_sp, hadd]; exact Nat.lt_succ_self _), pushed_stack_get, if_pos rfl]
  rw [htop] at hpop
  refine ⟨_, hpop, ?_, fun k hlt => ?_⟩
  · have hback : u.sp - 1 = s.sp := by rw [husp]; exact BitVec.add_sub_cancel _ _
    simp only [hback]
    rw [← hu]
    rfl
  · rw [hk k (by rw [pushed_sp, hadd]; omega), pushed_stack_get, if_neg (by omega)]

/-- N pushes that fit, then N pops: the values in reverse order, and the state but for entries at SP and above. -/
theorem pushAll_popAll (vs : List Word16) (s : State) (h : s.sp.toNat + vs.length ≤ 16) :
    ∃ t u, pushAll vs s = some t ∧ t.sp.toNat = s.sp.toNat + vs.length ∧
      popAll vs.length t = some (vs.reverse, u) ∧ SameButStaleStack s u := by
  induction vs generalizing s with
  | nil => exact ⟨s, s, rfl, rfl, rfl, rfl, fun _ _ => rfl⟩
  | cons v vs ih =>
    rw [List.length_cons] at h
    have hlt : s.sp.toNat < 16 := by omega
    have hadd : (s.pushed v).sp.toNat = s.sp.toNat + 1 := sp_add_one_toNat hlt
    obtain ⟨t, u, hpush, hsp, hpops, hsame⟩ := ih (s.pushed v) (by omega)
    obtain ⟨u', hpop, hsame'⟩ := pop_of_sameButStaleStack_pushed hlt hsame
    refine ⟨t, u', ?_, ?_, ?_, hsame'⟩
    · simp [pushAll, push_eq, hlt, hpush]
    · rw [hsp, hadd, List.length_cons]
      omega
    · rw [List.length_cons, List.reverse_cons]
      exact popAll_snoc hpops hpop

/-- Settles O21, by induction over the values pushed. -/
theorem pushesThenPopsRestoreTheStack : Obligations.PushesThenPopsRestoreTheStack := by
  unfold Obligations.PushesThenPopsRestoreTheStack
  intro vs s h
  obtain ⟨t, u, hpush, hsp, hpops, hsame⟩ := pushAll_popAll vs s h
  have hframe := keepsAllBut_of_sameButStaleStack hsame
  obtain ⟨-, hbelow⟩ := hsame
  exact ⟨t, u, hpush, hsp, hpops, hframe .sp (by decide), hbelow, hframe⟩

/-! ### What no instruction observes -/

/-- `s` with SP, the stack and ST replaced: what only CALL, RET and Fx18 touch. -/
def State.withHidden (s : State) (p : Word16) (k : Vector Word16 16) (b : Byte) : State :=
  { s with sp := p, stack := k, st := b }

/-- CALL, RET and Fx18: the instructions that touch SP, the stack or ST. -/
def touchesHidden (i : Instr) : Bool :=
  match i with
  | .call _ | .ret | .ldStVx _ => true
  | _ => false

theorem touchesHidden_cases {i : Instr} (h : touchesHidden i = true) :
    (∃ nnn, i = .call nnn) ∨ i = .ret ∨ ∃ x, i = .ldStVx x := by
  cases i with
  | call nnn => exact .inl ⟨nnn, rfl⟩
  | ret => exact .inr (.inl rfl)
  | ldStVx x => exact .inr (.inr ⟨x, rfl⟩)
  | _ => cases h

section
variable (s : State) (p : Word16) (k : Vector Word16 16) (b : Byte)

@[simp] theorem withHidden_mem : (s.withHidden p k b).mem = s.mem := rfl
@[simp] theorem withHidden_i : (s.withHidden p k b).i = s.i := rfl
@[simp] theorem withHidden_keys : (s.withHidden p k b).keys = s.keys := rfl
@[simp] theorem withHidden_reg (r : Nibble) : (s.withHidden p k b).reg r = s.reg r := rfl
@[simp] theorem withHidden_keyAt (n : Byte) : (s.withHidden p k b).keyAt n = s.keyAt n := rfl

theorem withHidden_self : s.withHidden s.sp s.stack s.st = s := rfl

theorem skipIf_withHidden (d : Bool) : (s.withHidden p k b).skipIf d = (s.skipIf d).withHidden p k b := by
  cases d <;> rfl

theorem raiseInStep_withHidden (c : Cause) (n : Nat) :
    raiseInStep c n (s.withHidden p k b) = (raiseInStep c n s).withHidden p k b := by
  rw [raiseInStep_eq, raiseInStep_eq]
  rfl

theorem storeAtI_withHidden (bs : List Byte) :
    storeAtI bs (s.withHidden p k b) = mapNext (·.withHidden p k b) (storeAtI bs s) := by
  unfold storeAtI
  rw [withHidden_mem, withHidden_i]
  cases memWrites s.mem s.i.toNat bs with
  | ok m => rfl
  | error a =>
    exact congrArg Host.Outcome.next (raiseInStep_withHidden
      { s with mem := memWritesSome (Config.faultEffectDone s.draws) s.mem s.i.toNat 0 bs } p k b _ a)

theorem loadFromI_withHidden (n : Nat) :
    loadFromI n (s.withHidden p k b) = mapNext (·.withHidden p k b) (loadFromI n s) := by
  unfold loadFromI
  rw [withHidden_mem, withHidden_i]
  cases memReads s.mem s.i.toNat n with
  | ok bs => rfl
  | error a =>
    exact congrArg Host.Outcome.next (raiseInStep_withHidden
      { s with v := loadRegsSome (Config.faultEffectDone s.draws) s.mem s.v s.i.toNat 0 n } p k b _ a)

theorem execDrw_withHidden (x y n : Nibble) :
    execDrw x y n (s.withHidden p k b) = mapNext (·.withHidden p k b) (execDrw x y n s) := by
  unfold execDrw
  rw [withHidden_mem, withHidden_i]
  cases memReads s.mem s.i.toNat n.toNat with
  | ok rows => rfl
  | error a => exact congrArg Host.Outcome.next (raiseInStep_withHidden _ p k b _ a)

theorem skipOnKey_withHidden (x : Nibble) (down : Bool) :
    skipOnKey x down (s.withHidden p k b) = mapNext (·.withHidden p k b) (skipOnKey x down s) := by
  unfold skipOnKey
  rw [withHidden_reg, withHidden_keyAt]
  cases s.keyAt (s.reg x) with
  | some d => exact congrArg Host.Outcome.next (skipIf_withHidden _ p k b _)
  | none => exact congrArg Host.Outcome.next (raiseInStep_withHidden _ p k b _ _)

theorem execLdVxK_withHidden (x : Nibble) :
    execLdVxK x (s.withHidden p k b) = mapNext (·.withHidden p k b) (execLdVxK x s) := by
  unfold execLdVxK
  rw [withHidden_keys]
  cases keySel s.keys with
  | some j => rfl
  | none => rfl

/-- Every other instruction neither reads nor writes SP, the stack and ST. -/
theorem exec_withHidden (i : Instr) (hi : touchesHidden i = false) :
    exec i (s.withHidden p k b) = mapNext (·.withHidden p k b) (exec i s) := by
  cases i with
  | call | ret | ldStVx => cases hi
  | seImm | sneImm | seReg | sneReg => exact congrArg Host.Outcome.next (skipIf_withHidden s p k b _)
  | drw x y n => exact execDrw_withHidden s p k b x y n
  | skp x => exact skipOnKey_withHidden s p k b x true
  | sknp x => exact skipOnKey_withHidden s p k b x false
  | ldVxK x => exact execLdVxK_withHidden s p k b x
  | ldB | ldMemVx => exact storeAtI_withHidden s p k b _
  | ldVxMem x => exact loadFromI_withHidden s p k b _
  | nop | cls | jp | ldImm | addImm | ldReg | orReg | andReg | xorReg | addReg | subReg | shr | subnReg | shl | ldI | jpV0
  | rnd | ldVxDt | ldDtVx | addI | ldF => rfl

/-- So it keeps all three: hide them as they are. -/
theorem exec_keepsHidden {i : Instr} (hi : touchesHidden i = false) {s t : State} (h : exec i s = .next t) :
    t = t.withHidden s.sp s.stack s.st := by
  have hself := exec_withHidden s s.sp s.stack s.st i hi
  rw [withHidden_self, h] at hself
  exact Host.Outcome.next.inj hself

end

/-! ### Related outcomes -/

section
variable {R : State → State → Prop}

theorem outcomesAgree_mapNext (f : State → State) (r : Result) (h : ∀ t, r = .next t → R t (f t)) :
    OutcomesAgree R r (mapNext f r) := by
  cases r with
  | next t => exact h t rfl
  | fault e => exact rfl
  | refused e => exact rfl

theorem mapNext_eq_of_outcomesAgree {f : State → State} {a b : Result}
    (h : OutcomesAgree (fun s t => f s = f t) a b) : mapNext f a = mapNext f b := by
  cases a <;> cases b
  case next.next => exact congrArg Host.Outcome.next h
  case fault.fault => exact congrArg Host.Outcome.fault h
  case refused.refused => exact congrArg Host.Outcome.refused h
  all_goals exact h.elim

/-- Two steps that fetch the same word from states with the same FLT agree as far as the three ways to a next state do. -/
theorem stepBy_outcomesAgree {run : Instr → State → Result} {s t : State} (hflt : t.flt = s.flt)
    (hfetch : t.fetch = s.fetch) (hraise : ∀ c n, R (raise c n s) (raise c n t))
    (hraiseInStep : ∀ c n, R (raiseInStep c n s.advance) (raiseInStep c n t.advance))
    (hrun : ∀ i, OutcomesAgree R (run i s.advance) (run i t.advance)) :
    OutcomesAgree R (stepBy run s) (stepBy run t) := by
  have hfaulted : t.faulted = s.faulted := by unfold State.faulted; rw [hflt]
  cases hf : s.faulted with
  | true =>
    rw [stepBy_faulted hf, stepBy_faulted (hfaulted.trans hf), hflt]
    exact rfl
  | false =>
    have hf' : t.faulted = false := hfaulted.trans hf
    cases hw : s.fetch with
    | error a =>
      rw [stepBy_fetchError hf hw, stepBy_fetchError hf' (hfetch.trans hw)]
      exact hraise _ a
    | ok w =>
      have hw' : t.fetch = .ok w := hfetch.trans hw
      cases hi : decodeWord w with
      | error e =>
        rw [stepBy_unimplemented hf hw hi, stepBy_unimplemented hf' hw' hi]
        exact hraiseInStep _ w.toNat
      | ok i =>
        rw [stepBy_decoded hf hw hi, stepBy_decoded hf' hw' hi]
        exact hrun i

end

/-! ### The stack entries at SP and above (10_state.md R27) -/

section
variable {s u : State} {k : Vector Word16 16}
  (hk : ∀ j : Fin 16, j.val < s.sp.toNat → k.get j = s.stack.get j)
include hk

/-- A change that keeps SP and the stack keeps the agreement. -/
theorem sameButStaleStack_of_keeps (hsp : u.sp = s.sp) (hstack : u.stack = s.stack) :
    SameButStaleStack u { u with stack := k } :=
  ⟨rfl, by rw [hsp, hstack]; exact hk⟩

theorem raiseInStep_staleStack (c : Cause) (n : Nat) :
    SameButStaleStack (raiseInStep c n s) (raiseInStep c n { s with stack := k }) := by
  rw [raiseInStep_eq, raiseInStep_eq]
  exact ⟨rfl, hk⟩

theorem execCall_staleStack (nnn : Addr12) :
    OutcomesAgree SameButStaleStack (execCall nnn s) (execCall nnn { s with stack := k }) := by
  by_cases h : s.sp.toNat < 16
  · rw [execCall_fits nnn h, execCall_fits nnn (s := { s with stack := k }) h]
    refine ⟨rfl, fun j hj => ?_⟩
    rw [setPc_sp, pushed_sp, sp_add_one_toNat h] at hj
    rw [setPc_stack, setPc_stack, pushed_stack_get, pushed_stack_get]
    by_cases hjs : j.val = s.sp.toNat
    · rw [if_pos hjs, if_pos hjs]
    · rw [if_neg hjs, if_neg hjs]
      exact hk j (by omega)
  · rw [execCall_overflow nnn h, execCall_overflow nnn (s := { s with stack := k }) h]
    exact raiseInStep_staleStack hk _ _

/-- RET reads the entry below SP, which the two stacks share. -/
theorem execRet_staleStack : OutcomesAgree SameButStaleStack (execRet s) (execRet { s with stack := k }) := by
  rcases sp_cases s with h | ⟨j, hj⟩ | h
  · rw [execRet_underflow h, execRet_underflow (s := { s with stack := k }) h]
    exact raiseInStep_staleStack hk _ _
  · have hsame : k.get j = s.stack.get j := hk j (by omega)
    rw [execRet_entry hj, execRet_entry (s := { s with stack := k }) hj]
    simp only [hsame]
    refine ⟨rfl, fun l hl => hk l ?_⟩
    have hsp : (s.sp - 1).toNat = j.val := sp_sub_one_toNat hj
    rw [setPc_sp, hsp] at hl
    omega
  · rw [execRet_noEntry h, execRet_noEntry (s := { s with stack := k }) h]
    exact rfl

theorem exec_staleStack (i : Instr) :
    OutcomesAgree SameButStaleStack (exec i s) (exec i { s with stack := k }) := by
  cases hi : touchesHidden i with
  | true =>
    rcases touchesHidden_cases hi with ⟨nnn, rfl⟩ | rfl | ⟨x, rfl⟩
    · exact execCall_staleStack hk nnn
    · exact execRet_staleStack hk
    · exact ⟨rfl, hk⟩
  | false =>
    have hrun : exec i { s with stack := k } = mapNext (·.withHidden s.sp k s.st) (exec i s) :=
      exec_withHidden s s.sp k s.st i hi
    rw [hrun]
    refine outcomesAgree_mapNext _ _ fun t ht => ?_
    rw [exec_keepsHidden hi ht]
    exact sameButStaleStack_of_keeps hk rfl rfl

end

/-- Settles O59: the fetch does not read the stack, CALL and RET read and write no entry above SP, and every other
instruction leaves SP and the stack alone. -/
theorem staleStackEntriesAreNotObserved : Obligations.StaleStackEntriesAreNotObserved := by
  unfold Obligations.StaleStackEntriesAreNotObserved
  rintro s t ⟨ht, hk⟩
  rw [← ht]
  exact stepBy_outcomesAgree rfl rfl (fun _ _ => ⟨rfl, hk⟩) (raiseInStep_staleStack (s := s.advance) hk)
    (exec_staleStack (s := s.advance) hk)

/-! ### ST (10_state.md R31, 60_exceptions.md R182) -/

/-- The two states are the same but for ST. -/
def SameButSt (s t : State) : Prop := { s with st := 0 } = { t with st := 0 }

section
variable (s : State) (b : Byte)

theorem raiseInStep_sameButSt (c : Cause) (n : Nat) :
    SameButSt (raiseInStep c n { s with st := b }) (raiseInStep c n s) := by
  rw [raiseInStep_eq, raiseInStep_eq]
  rfl

theorem execCall_sameButSt (nnn : Addr12) :
    OutcomesAgree SameButSt (execCall nnn { s with st := b }) (execCall nnn s) := by
  by_cases h : s.sp.toNat < 16
  · rw [execCall_fits nnn h, execCall_fits nnn (s := { s with st := b }) h]
    exact rfl
  · rw [execCall_overflow nnn h, execCall_overflow nnn (s := { s with st := b }) h]
    exact raiseInStep_sameButSt s b _ _

theorem execRet_sameButSt : OutcomesAgree SameButSt (execRet { s with st := b }) (execRet s) := by
  rcases sp_cases s with h | ⟨j, hj⟩ | h
  · rw [execRet_underflow h, execRet_underflow (s := { s with st := b }) h]
    exact raiseInStep_sameButSt s b _ _
  · rw [execRet_entry hj, execRet_entry (s := { s with st := b }) hj]
    exact rfl
  · rw [execRet_noEntry h, execRet_noEntry (s := { s with st := b }) h]
    exact rfl

theorem exec_sameButSt (i : Instr) : OutcomesAgree SameButSt (exec i { s with st := b }) (exec i s) := by
  cases hi : touchesHidden i with
  | true =>
    rcases touchesHidden_cases hi with ⟨nnn, rfl⟩ | rfl | ⟨x, rfl⟩
    · exact execCall_sameButSt s b nnn
    · exact execRet_sameButSt s b
    · exact rfl
  | false =>
    have hrun : exec i s = mapNext (·.withHidden s.sp s.stack s.st) (exec i { s with st := b }) :=
      exec_withHidden { s with st := b } s.sp s.stack s.st i hi
    rw [hrun]
    refine outcomesAgree_mapNext _ _ fun t ht => ?_
    rw [exec_keepsHidden hi ht]
    exact rfl

end

/-- Settles O58: the fetch does not read ST, and no instruction's outcome depends on it. -/
theorem soundTimerIsNotObserved : Obligations.SoundTimerIsNotObserved := by
  unfold Obligations.SoundTimerIsNotObserved
  intro s b
  exact mapNext_eq_of_outcomesAgree (stepBy_outcomesAgree (R := SameButSt) rfl rfl (fun _ _ => rfl)
    (raiseInStep_sameButSt s.advance b) (exec_sameButSt s.advance b))

end Sys2Proof.Machine
end

section
/-!
SUPPORT. The family of 20_memory.md: what Fx55 leaves at the addresses it stores to, which the next fetch reads (R63), and
that a memory in canonical form is determined by what it reads (R50).
-/
namespace Sys2Proof.Machine

/-! ### A store that fits (43_index_memory.md R144) -/

section
variable {x : Nibble} {s : State} (h : s.i.toNat + x.toNat ≤ 4095)
include h

/-- V0 to Vx fit in memory from I up. -/
theorem regsUpTo_fits : s.regsUpTo x = [] ∨ s.i.toNat + (s.regsUpTo x).length ≤ Config.memSize := by
  rw [regsUpTo_length]
  unfold Config.memSize
  omega

theorem exec_ldMemVx_fits :
    exec (.ldMemVx x) s = .next { s with mem := copyBytes s.mem s.i.toNat (s.regsUpTo x) } :=
  storeAtI_fits _ s (regsUpTo_fits h)

/-- Register `k` is what the store leaves at I + k. -/
theorem read_copyBytes_regsUpTo (hwf : s.mem.wf = true) {k : Nibble} (hk : k.toNat ≤ x.toNat) :
    (copyBytes s.mem s.i.toNat (s.regsUpTo x)).read (s.i.toNat + k.toNat) = s.reg k := by
  have hin : s.i.toNat ≤ s.i.toNat + k.toNat ∧ s.i.toNat + k.toNat < s.i.toNat + (s.regsUpTo x).length := by
    rw [regsUpTo_length]
    omega
  rw [read_copyBytes hwf _ _ (regsUpTo_fits h), if_pos hin, Nat.add_sub_cancel_left, regsUpTo_getD s x k hk]

end

/-- Settles O37: the fetch reads PC and PC + 1, where the store left `V[k]` and `V[k+1]`. -/
theorem storedBytesAreFetchedNext : Obligations.StoredBytesAreFetchedNext := by
  unfold Obligations.StoredBytesAreFetchedNext
  intro x k k' s hwf hfits hpc hk' hle
  refine ⟨_, exec_ldMemVx_fits hfits, ?_⟩
  have hpc' : s.pc.toNat + 1 = s.i.toNat + k'.toNat := by omega
  rw [fetch_ok _ (by simp only; omega)]
  simp only
  rw [hpc', hpc, read_copyBytes_regsUpTo hfits hwf (k := k) (by omega), read_copyBytes_regsUpTo hfits hwf hle]

/-! ### Reads determine a canonical memory (R50, R56) -/

theorem read_cons_self (k : Nat) (b : Byte) (m : Memory) : Memory.read ((k, b) :: m) k = b := if_pos rfl

theorem read_cons_of_ne {k a : Nat} (h : a ≠ k) (b : Byte) (m : Memory) :
    Memory.read ((k, b) :: m) a = Memory.read m a := if_neg h

/-- The first listed address does not read as the reset contents. -/
theorem read_head_ne_initByte {lo k : Nat} {b : Byte} {m : Memory} (hm : Memory.wfFrom lo ((k, b) :: m) = true) :
    Memory.read ((k, b) :: m) k ≠ initByte k := by
  obtain ⟨-, -, hb, -⟩ := (wfFrom_cons lo k b m).mp hm
  rwa [read_cons_self]

/-- It is the lowest address that does not. -/
theorem head_le_of_read_ne_initByte {lo k a : Nat} {b : Byte} {m : Memory}
    (hm : Memory.wfFrom lo ((k, b) :: m) = true) (h : Memory.read ((k, b) :: m) a ≠ initByte a) : k ≤ a := by
  obtain ⟨-, hk, hb, htail⟩ := (wfFrom_cons lo k b m).mp hm
  by_contra hlt
  exact h (read_below ((wfFrom_cons k k b m).mpr ⟨Nat.le_refl k, hk, hb, htail⟩) (by omega))

/-- Two memories in canonical form that read alike list the same first address: the lowest that does not read as the reset
contents. -/
theorem eq_of_read_eq {lo lo' : Nat} {m m' : Memory} (hm : Memory.wfFrom lo m = true)
    (hm' : Memory.wfFrom lo' m' = true) (h : ∀ a, Memory.read m a = Memory.read m' a) : m = m' := by
  induction m generalizing lo lo' m' with
  | nil =>
    cases m' with
    | nil => rfl
    | cons c' m' => exact absurd (h c'.1).symm (read_head_ne_initByte hm')
  | cons c m ih =>
    obtain ⟨k, b⟩ := c
    cases m' with
    | nil => exact absurd (h k) (read_head_ne_initByte hm)
    | cons c' m' =>
      obtain ⟨k', b'⟩ := c'
      have hkk : k = k' := Nat.le_antisymm
        (head_le_of_read_ne_initByte hm (by rw [h]; exact read_head_ne_initByte hm'))
        (head_le_of_read_ne_initByte hm' (by rw [← h]; exact read_head_ne_initByte hm))
      subst hkk
      have hbb : b = b' := by simpa only [read_cons_self] using h k
      obtain ⟨-, -, -, htail⟩ := (wfFrom_cons lo k b m).mp hm
      obtain ⟨-, -, -, htail'⟩ := (wfFrom_cons lo' k b' m').mp hm'
      have hread : ∀ a, Memory.read m a = Memory.read m' a := by
        intro a
        by_cases ha : a = k
        · rw [read_below htail (by omega), read_below htail' (by omega)]
        · simpa only [read_cons_of_ne ha] using h a
      rw [hbb, ih htail htail' hread]

/-- Settles O38, by induction over the cells of both memories. -/
theorem canonicalMemoriesWithEqualReadsAreEqual : Obligations.CanonicalMemoriesWithEqualReadsAreEqual := by
  unfold Obligations.CanonicalMemoriesWithEqualReadsAreEqual
  exact fun _ _ => eq_of_read_eq

end Sys2Proof.Machine
end

section
/-!
SUPPORT. The family of 30_encoding.md: the decoder and the encoder are inverse to each other (R71, R76), the words of a row of
the opcode map are the encodings of its instructions (R74), and the words that no row has (R75).
-/
namespace Sys2Proof

open Machine Laws

/-! ### The decoder on encoded words -/

section
variable {strict : Bool} {w : Word16} {i : Instr}

/-- Each shape of word gives its fields back, so that the family's branch rebuilds the instruction; STRICT_D4 alone can refuse
it (R76). -/
theorem decodeRow_encode (strict : Bool) (i : Instr) :
    decodeRow strict (encode i) = if i.wellFormed strict then some i else none := by
  cases i with
  | nop | cls | ret => rfl
  | jp | call | ldI | jpV0 | seImm | sneImm | ldImm | addImm | rnd | drw =>
    simp [encode, decodeRow, Instr.wellFormed]
  | seReg | sneReg => simp [encode, decodeRow, decodeSkipReg]
  | ldReg | orReg | andReg | xorReg | addReg | subReg | shr | subnReg | shl =>
    simp [encode, decodeRow, decodeFamily8, Instr.wellFormed]
  | skp | sknp => simp [encode, decodeRow, decodeFamilyE, Instr.wellFormed]
  | ldVxDt | ldVxK | ldDtVx | ldStVx | addI | ldF | ldB | ldMemVx | ldVxMem =>
    simp [encode, decodeRow, decodeFamilyF, Instr.wellFormed]

theorem decodeRow_eq_some_iff : decodeRow strict w = some i ↔ encode i = w ∧ i.wellFormed strict = true := by
  constructor
  · intro h
    have hw : encode i = w := encode_of_decodeRow h
    rw [← hw, decodeRow_encode] at h
    split_ifs at h with hi
    exact ⟨hw, hi⟩
  · rintro ⟨rfl, hi⟩
    rw [decodeRow_encode, if_pos hi]

theorem decodeWith_eq_ok_iff_decodeRow : decodeWith strict w = .ok i ↔ decodeRow strict w = some i := by
  unfold decodeWith
  cases decodeRow strict w <;> simp

theorem decodeWith_eq_error_iff_decodeRow :
    decodeWith strict w = .error (.unimplemented w) ↔ decodeRow strict w = none := by
  unfold decodeWith
  cases decodeRow strict w <;> simp

theorem decodeWith_eq_ok_iff : decodeWith strict w = .ok i ↔ encode i = w ∧ i.wellFormed strict = true :=
  decodeWith_eq_ok_iff_decodeRow.trans decodeRow_eq_some_iff

end

/-- Settles O1: of the encoding, the decoder reads the instruction, which STRICT_D4 does not refuse. -/
theorem decodeOfEncodeIsTheInstruction : Obligations.DecodeOfEncodeIsTheInstruction := by
  unfold Obligations.DecodeOfEncodeIsTheInstruction
  exact fun _ _ hi => decodeWith_eq_ok_iff.mpr ⟨rfl, hi⟩

/-- Settles O2, from the rows read back to the word and what the decoder answers on an encoding. -/
theorem encodeOfDecodeIsTheWord : Obligations.EncodeOfDecodeIsTheWord := by
  unfold Obligations.EncodeOfDecodeIsTheWord
  exact fun _ _ _ => decodeWith_eq_ok_iff.mp

/-! ### The rows of the opcode map (R74) -/

/-- With STRICT_D4 = false (D12) every instruction is well-formed. -/
theorem wellFormed_strictD4 (i : Instr) : i.wellFormed strictD4 = true := by
  cases i <;> rfl

theorem decodeWord_eq_ok_iff {w : Word16} {i : Instr} : decodeWord w = .ok i ↔ encode i = w := by
  unfold decodeWord
  rw [decodeWith_eq_ok_iff, and_iff_left (wellFormed_strictD4 i)]

/-- Every encoding lies in its instruction's row, by the shape of the word. -/
theorem encode_and_mask (i : Instr) : encode i &&& (opcodeMapRow i).1 = (opcodeMapRow i).2 := by
  cases i with
  | nop | cls | ret => rfl
  | jp | call | ldI | jpV0 => exact EncodedRow.row_nnn _ _ _ rfl (by decide)
  | seImm | sneImm | ldImm | addImm | rnd => exact EncodedRow.row_xnn _ _ _ _ rfl (by decide)
  | seReg | sneReg | drw => exact EncodedRow.row_xyd _ _ _ _ _ rfl (by decide)
  | ldReg | orReg | andReg | xorReg | addReg | subReg | shr | subnReg | shl =>
    exact EncodedRow.row_xy _ _ _ _ _ rfl (by decide)
  | skp | sknp | ldVxDt | ldVxK | ldDtVx | ldStVx | addI | ldF | ldB | ldMemVx | ldVxMem =>
    exact EncodedRow.row_sub _ _ _ _ rfl (by decide)

/-- A field that the mask keeps whole is the match's. -/
theorem extractLsb'_of_masked {w m t : Word16} {start len : Nat} (h : w &&& m = t)
    (hm : m.extractLsb' start len = BitVec.allOnes len) : w.extractLsb' start len = t.extractLsb' start len := by
  rw [← h, BitVec.extractLsb'_and, hm, BitVec.and_allOnes]

section
variable {w : Word16} {d e : Nibble} {nn : Byte}

/-- The mask FFFF. -/
theorem eq_of_masked_full {t : Word16} (h : w &&& 0xFFFF = t) : t = w := by
  rw [← h]
  exact BitVec.and_allOnes

/-- The mask F000. -/
theorem nib1_of_masked_family (h : w &&& 0xF000 = encodeNnn d 0x000) : nib1 w = d :=
  (extractLsb'_of_masked h rfl).trans (nib1_encodeNnn d 0x000)

/-- The mask F00F. -/
theorem wordOfNibbles_of_masked (h : w &&& 0xF00F = wordOfNibbles d 0x0 0x0 e) :
    wordOfNibbles d (nib2 w) (nib3 w) e = w := by
  have h1 : nib1 w = d := (extractLsb'_of_masked h rfl).trans (nib1_wordOfNibbles d 0x0 0x0 e)
  have h4 : nib4 w = e := (extractLsb'_of_masked h rfl).trans (nib4_wordOfNibbles d 0x0 0x0 e)
  rw [← h4]
  exact wordOfNibbles_fields h1

/-- The mask F0FF. -/
theorem encodeXnn_of_masked (h : w &&& 0xF0FF = encodeXnn d 0x0 nn) : encodeXnn d (nib2 w) nn = w := by
  have h1 : nib1 w = d := (extractLsb'_of_masked h rfl).trans (nib1_encodeXnn d 0x0 nn)
  have hn : fieldNn w = nn := (extractLsb'_of_masked h rfl).trans (fieldNn_encodeXnn d 0x0 nn)
  rw [← hn]
  exact encodeXnn_fields h1

end

/-- A word of a row is the encoding of the row's instruction with the word's own fields. -/
theorem exists_encode_of_masked {w : Word16} {i : Instr} (h : w &&& (opcodeMapRow i).1 = (opcodeMapRow i).2) :
    ∃ j, encode j = w ∧ opcodeMapRow j = opcodeMapRow i :=
  match i with
  | .nop => ⟨.nop, eq_of_masked_full h, rfl⟩
  | .cls => ⟨.cls, eq_of_masked_full h, rfl⟩
  | .ret => ⟨.ret, eq_of_masked_full h, rfl⟩
  | .jp _ => ⟨.jp (fieldNnn w), encodeNnn_fields (nib1_of_masked_family h), rfl⟩
  | .call _ => ⟨.call (fieldNnn w), encodeNnn_fields (nib1_of_masked_family h), rfl⟩
  | .seImm _ _ => ⟨.seImm (nib2 w) (fieldNn w), encodeXnn_fields (nib1_of_masked_family h), rfl⟩
  | .sneImm _ _ => ⟨.sneImm (nib2 w) (fieldNn w), encodeXnn_fields (nib1_of_masked_family h), rfl⟩
  | .seReg _ _ _ => ⟨.seReg (nib2 w) (nib3 w) (nib4 w), wordOfNibbles_fields (nib1_of_masked_family h), rfl⟩
  | .ldImm _ _ => ⟨.ldImm (nib2 w) (fieldNn w), encodeXnn_fields (nib1_of_masked_family h), rfl⟩
  | .addImm _ _ => ⟨.addImm (nib2 w) (fieldNn w), encodeXnn_fields (nib1_of_masked_family h), rfl⟩
  | .ldReg _ _ => ⟨.ldReg (nib2 w) (nib3 w), wordOfNibbles_of_masked h, rfl⟩
  | .orReg _ _ => ⟨.orReg (nib2 w) (nib3 w), wordOfNibbles_of_masked h, rfl⟩
  | .andReg _ _ => ⟨.andReg (nib2 w) (nib3 w), wordOfNibbles_of_masked h, rfl⟩
  | .xorReg _ _ => ⟨.xorReg (nib2 w) (nib3 w), wordOfNibbles_of_masked h, rfl⟩
  | .addReg _ _ => ⟨.addReg (nib2 w) (nib3 w), wordOfNibbles_of_masked h, rfl⟩
  | .subReg _ _ => ⟨.subReg (nib2 w) (nib3 w), wordOfNibbles_of_masked h, rfl⟩
  | .shr _ _ => ⟨.shr (nib2 w) (nib3 w), wordOfNibbles_of_masked h, rfl⟩
  | .subnReg _ _ => ⟨.subnReg (nib2 w) (nib3 w), wordOfNibbles_of_masked h, rfl⟩
  | .shl _ _ => ⟨.shl (nib2 w) (nib3 w), wordOfNibbles_of_masked h, rfl⟩
  | .sneReg _ _ _ => ⟨.sneReg (nib2 w) (nib3 w) (nib4 w), wordOfNibbles_fields (nib1_of_masked_family h), rfl⟩
  | .ldI _ => ⟨.ldI (fieldNnn w), encodeNnn_fields (nib1_of_masked_family h), rfl⟩
  | .jpV0 _ => ⟨.jpV0 (fieldNnn w), encodeNnn_fields (nib1_of_masked_family h), rfl⟩
  | .rnd _ _ => ⟨.rnd (nib2 w) (fieldNn w), encodeXnn_fields (nib1_of_masked_family h), rfl⟩
  | .drw _ _ _ => ⟨.drw (nib2 w) (nib3 w) (nib4 w), wordOfNibbles_fields (nib1_of_masked_family h), rfl⟩
  | .skp _ => ⟨.skp (nib2 w), encodeXnn_of_masked h, rfl⟩
  | .sknp _ => ⟨.sknp (nib2 w), encodeXnn_of_masked h, rfl⟩
  | .ldVxDt _ => ⟨.ldVxDt (nib2 w), encodeXnn_of_masked h, rfl⟩
  | .ldVxK _ => ⟨.ldVxK (nib2 w), encodeXnn_of_masked h, rfl⟩
  | .ldDtVx _ => ⟨.ldDtVx (nib2 w), encodeXnn_of_masked h, rfl⟩
  | .ldStVx _ => ⟨.ldStVx (nib2 w), encodeXnn_of_masked h, rfl⟩
  | .addI _ => ⟨.addI (nib2 w), encodeXnn_of_masked h, rfl⟩
  | .ldF _ => ⟨.ldF (nib2 w), encodeXnn_of_masked h, rfl⟩
  | .ldB _ => ⟨.ldB (nib2 w), encodeXnn_of_masked h, rfl⟩
  | .ldMemVx _ => ⟨.ldMemVx (nib2 w), encodeXnn_of_masked h, rfl⟩
  | .ldVxMem _ => ⟨.ldVxMem (nib2 w), encodeXnn_of_masked h, rfl⟩

/-- Settles O3: a word of the row is an encoding with the word's own fields, which the decoder reads; and an instruction of the
row was read from its encoding, which lies in the row. -/
theorem decodingFollowsTheOpcodeMap : Obligations.DecodingFollowsTheOpcodeMap := by
  unfold Obligations.DecodingFollowsTheOpcodeMap
  intro w i
  simp only [decodeWord_eq_ok_iff]
  constructor
  · exact exists_encode_of_masked
  · rintro ⟨j, rfl, hrow⟩
    rw [← hrow]
    exact encode_and_mask j

/-! ### The words of no row (R75) -/

/-- A test that selects a row, in a chain of them. -/
theorem ite_some_eq_none_iff {c : Prop} [Decidable c] {i : Instr} {o : Option Instr} :
    (if c then some i else o) = none ↔ ¬ c ∧ o = none := by
  split <;> simp [*]

section
variable {x y d4 : Nibble} {nn : Byte}

theorem decodeFamily0_eq_none_iff {w : Word16} :
    decodeFamily0 w = none ↔ w ≠ 0x0000 ∧ w ≠ 0x00E0 ∧ w ≠ 0x00EE := by
  simp [decodeFamily0, ite_some_eq_none_iff]

/-- The nibbles that R75 lists for family 8 are those that select no row of R74. -/
theorem mem_unlisted_d4 : ∀ d4 : Nibble,
    d4 ∈ [0x8, 0x9, 0xA, 0xB, 0xC, 0xD, 0xF] ↔ d4 ∉ [0x0, 0x1, 0x2, 0x3, 0x4, 0x5, 0x6, 0x7, 0xE] := by
  decide

theorem decodeFamily8_eq_none_iff :
    decodeFamily8 x y d4 = none ↔ d4 ∈ [0x8, 0x9, 0xA, 0xB, 0xC, 0xD, 0xF] := by
  rw [mem_unlisted_d4]
  unfold decodeFamily8
  split <;> simp_all

theorem decodeFamilyE_eq_none_iff : decodeFamilyE x nn = none ↔ nn ∉ [0x9E, 0xA1] := by
  simp [decodeFamilyE, ite_some_eq_none_iff]

theorem decodeFamilyF_eq_none_iff :
    decodeFamilyF x nn = none ↔ nn ∉ [0x07, 0x0A, 0x15, 0x18, 0x1E, 0x29, 0x33, 0x55, 0x65] := by
  simp [decodeFamilyF, ite_some_eq_none_iff]

theorem decodeSkipReg_eq_none_iff {strict : Bool} {i : Instr} :
    decodeSkipReg strict i = none ↔ i.wellFormed strict = false := by
  simp [decodeSkipReg]

end

/-- The sixteen families are all there are: no word comes to the decoder's last branch. -/
theorem nibble_mem_families : ∀ d : Nibble,
    d ∈ [0x0, 0x1, 0x2, 0x3, 0x4, 0x5, 0x6, 0x7, 0x8, 0x9, 0xA, 0xB, 0xC, 0xD, 0xE, 0xF] := by
  decide

/-- Family by family; the families that are not named here reject nothing, and the list has none of their words. The branch
`h_k` of the decoder is the family d1 = k - 1. -/
theorem decodeRow_eq_none_iff {strict : Bool} {w : Word16} : decodeRow strict w = none ↔ UnimplementedWord strict w := by
  unfold decodeRow UnimplementedWord
  split
  case h_1 hd => simp [hd, decodeFamily0_eq_none_iff]
  case h_9 hd => simp [hd, decodeFamily8_eq_none_iff]
  case h_15 hd => simp [hd, decodeFamilyE_eq_none_iff]
  case h_16 hd => simp [hd, decodeFamilyF_eq_none_iff]
  case h_6 hd | h_10 hd => simp [hd, decodeSkipReg_eq_none_iff, Instr.wellFormed]
  case h_17 =>
    have hd := nibble_mem_families (nib1 w)
    simp_all
  all_goals
    rename_i hd
    simp [hd]

/-- Settles O4: what the decoder rejects in each family is what the list has of it. -/
theorem unimplementedWordsAreExactlyTheListed : Obligations.UnimplementedWordsAreExactlyTheListed := by
  unfold Obligations.UnimplementedWordsAreExactlyTheListed
  exact fun _ _ => decodeWith_eq_error_iff_decodeRow.trans decodeRow_eq_none_iff

end Sys2Proof
end

section
/-!
SUPPORT. The family of 40_step_cycle.md: the step of a live machine by what its fetch and decoder answer (R90 to R95), the
FAULTED machine (R97), and the jump to itself that parks a program (R98).
-/
namespace Sys2Proof.Machine

/-! ### The fault record decides whether the machine runs (10_state.md R35) -/

section
variable {s : State}

theorem faulted_eq_false_iff : s.faulted = false ↔ s.flt.cause = .noFault := by
  simp [State.faulted]

theorem faulted_eq_true_iff : s.faulted = true ↔ s.flt.cause ≠ .noFault := decide_eq_true_iff

theorem tick_faulted (h : s.faulted = true) : tick s = (s, false) := if_pos h

theorem hostLoad_faulted (h : s.faulted = true) (bytes : List Byte) : hostLoad bytes s = s := if_pos h

theorem setKey_faulted (h : s.faulted = true) (k : Nibble) (down : Bool) : setKey k down s = s := if_pos h

theorem event_faulted (h : s.faulted = true) {e : Event} (he : e ≠ .reset) : event e s = .fault (.halted s.flt) := by
  simp [event, h, he]

end

/-! ### A fault of an executing instruction with no other effect (60_exceptions.md R177, R178) -/

theorem raiseInStep_keepsAllBut (c : Cause) (n : Nat) (s : State) :
    KeepsAllBut [.pc, .flt, .draws] s (raiseInStep c n s) := by
  intro p hp
  cases p with
  | pc | flt | draws => simp at hp
  | v | i | sp | stack | dt | st | keys | fb | mem => simp [Part.same]

theorem raiseInStep_faultsWith (c : Cause) (n : Nat) (s : State) :
    FaultsWith c (BitVec.ofNat 16 n) [] s (raiseInStep c n s) :=
  ⟨raiseInStep_flt s c n, raiseInStep_pc s c n, raiseInStep_keepsAllBut c n s⟩

/-! ### The statements -/

/-- Settles O6: the fetch reads the two bytes at PC, and the decoded instruction is run after the advance. -/
theorem stepRunsTheDecodedInstruction : Obligations.StepRunsTheDecodedInstruction := by
  unfold Obligations.StepRunsTheDecodedInstruction
  intro s i hlive hpc hi
  exact stepBy_decoded (faulted_eq_false_iff.mpr hlive) (fetch_ok s hpc) hi

/-- R91's info as a word: the first address out of range is 4096 for PC = 4095, and PC itself above. -/
theorem ofNat_firstOutOfRange {p : Word16} (h : 4095 ≤ p.toNat) :
    BitVec.ofNat 16 (firstOutOfRange p.toNat) = if p.toNat = 4095 then 4096 else p := by
  by_cases hp : p.toNat = 4095
  · rw [if_pos hp, hp]
    rfl
  · have hmem : Config.memSize ≤ p.toNat := by
      unfold Config.memSize
      omega
    rw [if_neg hp, firstOutOfRange, Nat.max_eq_left hmem, BitVec.ofNat_toNat, BitVec.setWidth_eq]

/-- Settles O7: the fetch answers the first address out of range, which becomes the info. -/
theorem fetchBeyondMemoryFaults : Obligations.FetchBeyondMemoryFaults := by
  unfold Obligations.FetchBeyondMemoryFaults
  intro s hlive hpc
  have hstep : step s = .next (raise .memOutOfRange (firstOutOfRange s.pc.toNat) s) :=
    stepBy_fetchError (faulted_eq_false_iff.mpr hlive) (fetch_error s hpc)
  rw [hstep, raise, ofNat_firstOutOfRange hpc]

/-- Settles O8: the decoder rejects every listed word (O4), and the fault that the step then raises has no other effect. -/
theorem unimplementedWordFaults : Obligations.UnimplementedWordFaults := by
  unfold Obligations.UnimplementedWordFaults
  intro s w hlive hpc hw hun
  have hfetch : s.fetch = .ok w := by rw [fetch_ok s hpc, hw]
  have herr : decodeWord w = .error (.unimplemented w) := (unimplementedWordsAreExactlyTheListed strictD4 w).mpr hun
  refine ⟨_, stepBy_unimplemented (faulted_eq_false_iff.mpr hlive) hfetch herr, ?_⟩
  have hfault := raiseInStep_faultsWith .unimplementedInstruction w.toNat s.advance
  rwa [BitVec.ofNat_toNat, BitVec.setWidth_eq] at hfault

/-- Settles O9: every event but reset looks at FLT first. -/
theorem faultedMachineIsStuck : Obligations.FaultedMachineIsStuck := by
  unfold Obligations.FaultedMachineIsStuck
  intro s hflt
  have hf : s.faulted = true := faulted_eq_true_iff.mpr hflt
  exact ⟨stepBy_faulted hf, fun _ he => event_faulted hf he, tick_faulted hf, hostLoad_faulted hf,
    fun k => ⟨setKey_faulted hf k true, setKey_faulted hf k false⟩⟩

/-! ### The jump to itself (R98; 41_control_flow.md R102) -/

theorem exec_jp (nnn : Addr12) (s : State) : exec (.jp nnn) s = .next (s.setPc (targetOf nnn)) := rfl

/-- A jump overwrites the advanced PC (R92). -/
@[simp] theorem setPc_advance (s : State) (p : Word16) : s.advance.setPc p = s.setPc p := rfl

@[simp] theorem setPc_self (s : State) : s.setPc s.pc = s := rfl

theorem targetOf_toNat (nnn : Addr12) : (targetOf nnn).toNat = nnn.toNat :=
  BitVec.toNat_setWidth_of_le (by decide)

/-- Settles O24: the step is the jump (O6), which puts PC back to where it was. -/
theorem selfJumpParks : Obligations.SelfJumpParks := by
  unfold Obligations.SelfJumpParks
  intro s nnn hlive hpc hle hw
  have htarget : targetOf nnn = s.pc := BitVec.eq_of_toNat_eq (by rw [targetOf_toNat, hpc])
  have hdecode := decodeWord_eq_ok_iff (i := .jp nnn).mpr hw.symm
  calc
    step s = exec (.jp nnn) s.advance := stepRunsTheDecodedInstruction s _ hlive (by omega) hdecode
    _ = .next s := by rw [exec_jp, setPc_advance, htarget, setPc_self]

end Sys2Proof.Machine
end

section
/-!
SUPPORT. The family of 41_control_flow.md: NOP, the jumps, CALL and RET, and the skips, each by its PC and its frame; and from
the statements of CALL and RET, that a subroutine returns to the address after its call (R101).
-/
namespace Sys2Proof.Machine

/-! ### Frames of what the control-flow instructions write -/

section
variable {l : List Part} {s t : State} (h : KeepsAllBut l s t)
include h

theorem keepsAllBut_setPc (hpc : .pc ∈ l) (p : Word16) : KeepsAllBut l s (t.setPc p) := by
  intro q hq
  cases q with
  | pc => exact absurd hpc hq
  | v | i | sp | stack | dt | st | keys | fb | mem | flt | draws => exact h _ hq

theorem keepsAllBut_withSp (hsp : .sp ∈ l) (p : Word16) : KeepsAllBut l s { t with sp := p } := by
  intro q hq
  cases q with
  | sp => exact absurd hsp hq
  | v | i | pc | stack | dt | st | keys | fb | mem | flt | draws => exact h _ hq

theorem keepsAllBut_pushed (hsp : .sp ∈ l) (hstack : .stack ∈ l) (p : Word16) : KeepsAllBut l s (t.pushed p) := by
  intro q hq
  cases q with
  | sp => exact absurd hsp hq
  | stack => exact absurd hstack hq
  | v | i | pc | dt | st | keys | fb | mem | flt | draws => exact h _ hq

end

theorem setPc_writesPc (s : State) (p : Word16) : WritesPc p s (s.setPc p) :=
  ⟨rfl, keepsAllBut_setPc (keepsAllBut_refl s _) List.mem_cons_self p⟩

/-! ### NOP and the jumps (R100, R102, R104) -/

/-- Settles O14: two zero bytes are the word of NOP, so the step is NOP after the advance (O6). -/
theorem nopOnlyAdvancesPc : Obligations.NopOnlyAdvancesPc := by
  unfold Obligations.NopOnlyAdvancesPc
  have hdecode : decodeWord 0x0000 = .ok .nop := decodeWord_eq_ok_iff.mpr rfl
  refine ⟨hdecode, fun _ => rfl, fun s hlive hpc hhi hlo => ?_⟩
  have hword : decodeWord (wordOfBytes (s.mem.read s.pc.toNat) (s.mem.read (s.pc.toNat + 1))) = .ok .nop := by
    rw [hhi, hlo]
    exact hdecode
  exact stepRunsTheDecodedInstruction s .nop hlive hpc hword

/-- Settles O15: the decoder reads the word back, and the jump is a write of PC alone. -/
theorem jumpGoesToItsAddress : Obligations.JumpGoesToItsAddress := by
  unfold Obligations.JumpGoesToItsAddress
  intro nnn s
  obtain ⟨hpc, hframe⟩ := setPc_writesPc s (targetOf nnn)
  exact ⟨decodeWord_eq_ok_iff.mpr rfl, _, exec_jp nnn s, by rw [hpc, targetOf_toNat], hframe⟩

/-- The sum of R104 is below 65536, so the 16-bit addition does not wrap. -/
theorem targetV0_toNat (nnn : Addr12) (s : State) : (targetV0 nnn s).toNat = (s.reg 0).toNat + nnn.toNat := by
  have hb : (zextByte (s.reg 0)).toNat = (s.reg 0).toNat := BitVec.toNat_setWidth_of_le (by decide)
  have ha : (zextAddr nnn).toNat = nnn.toNat := targetOf_toNat nnn
  have hblt := (s.reg 0).isLt
  have halt := nnn.isLt
  rw [targetV0, BitVec.toNat_add_of_lt (by omega), hb, ha]

/-- Settles O16, as O15, with the sum of R104 as the target. -/
theorem jumpV0GoesToTheSum : Obligations.JumpV0GoesToTheSum := by
  unfold Obligations.JumpV0GoesToTheSum
  intro nnn s
  obtain ⟨hpc, hframe⟩ := setPc_writesPc s (targetV0 nnn s)
  exact ⟨decodeWord_eq_ok_iff.mpr rfl, _, rfl, by rw [hpc, targetV0_toNat], hframe⟩

/-! ### CALL and RET (R101, R103) -/

/-- Settles O17: the next state is the push of the advanced PC, then the jump. -/
theorem callPushesAndJumps : Obligations.CallPushesAndJumps := by
  unfold Obligations.CallPushesAndJumps
  intro nnn s hsp
  have hpushed : KeepsAllBut [.pc, .sp, .stack] s (s.pushed s.pc) :=
    keepsAllBut_pushed (keepsAllBut_refl s _) (by decide) (by decide) s.pc
  exact ⟨_, execCall_fits nnn hsp, targetOf_toNat nnn, rfl, pushed_stack_get s s.pc,
    keepsAllBut_setPc hpushed (by decide) _⟩

/-- Settles O18: the next state is the pop, then the jump to the value popped. -/
theorem returnPopsIntoPc : Obligations.ReturnPopsIntoPc := by
  unfold Obligations.ReturnPopsIntoPc
  intro s k hk
  have hpopped : KeepsAllBut [.pc, .sp] s { s with sp := s.sp - 1 } :=
    keepsAllBut_withSp (keepsAllBut_refl s _) (by decide) _
  exact ⟨_, execRet_entry hk, rfl, sp_sub_one_toNat hk, keepsAllBut_setPc hpopped (by decide) _⟩

/-- Settles O20: the entry that CALL pushed (O17) is below SP in `u`, so it is the one that RET pops (O18). -/
theorem callThenReturnResumesAfterTheCall : Obligations.CallThenReturnResumesAfterTheCall := by
  unfold Obligations.CallThenReturnResumesAfterTheCall
  intro nnn s t u hsp hcall husp hbelow
  obtain ⟨t', hcall', -, htsp, htstack, -⟩ := callPushesAndJumps nnn s hsp
  obtain rfl : t = t' := Host.Outcome.next.inj (hcall.symm.trans hcall')
  have htop : t.sp.toNat = s.sp.toNat + 1 := by rw [htsp, sp_add_one_toNat hsp]
  obtain ⟨r, hret, hrpc, hrsp, hframe⟩ := returnPopsIntoPc u ⟨s.sp.toNat, hsp⟩ (by rw [husp, htop])
  refine ⟨r, hret, ?_, BitVec.eq_of_toNat_eq hrsp, fun k hk => ?_⟩
  · rw [hrpc, hbelow _ (by rw [htop]; exact Nat.lt_succ_self _), htstack, if_pos rfl]
  · have hkept : r.stack.get k = u.stack.get k := hframe .stack (by decide) k
    rw [hkept, hbelow k (by omega), htstack, if_neg (by omega)]

/-! ### The skips (R105 to R109) -/

theorem skipIf_eq_writesPc (a b : Byte) (s : State) :
    WritesPc (if a = b then s.pc + 2 else s.pc) s (s.skipIf (a == b)) := by
  rw [skipIf_eq]
  simp only [beq_iff_eq]
  exact setPc_writesPc s _

theorem skipIf_ne_writesPc (a b : Byte) (s : State) :
    WritesPc (if a = b then s.pc else s.pc + 2) s (s.skipIf (a != b)) := by
  rw [skipIf_eq]
  simp only [bne_iff_ne, ite_not]
  exact setPc_writesPc s _

/-- Settles O22: either skip is a write of PC alone, by the comparison of Vx with nn. -/
theorem skipsOnImmediate : Obligations.SkipsOnImmediate := by
  unfold Obligations.SkipsOnImmediate
  intro x nn s
  exact ⟨decodeWord_eq_ok_iff.mpr rfl, decodeWord_eq_ok_iff.mpr rfl,
    ⟨_, rfl, skipIf_eq_writesPc (s.reg x) nn s⟩, ⟨_, rfl, skipIf_ne_writesPc (s.reg x) nn s⟩⟩

/-- Settles O23: with STRICT_D4 false the decoder accepts every d4 (`wellFormed_strictD4`), and the arms do not look at it. -/
theorem skipsOnRegister : Obligations.SkipsOnRegister := by
  unfold Obligations.SkipsOnRegister
  intro x y d4 s
  exact ⟨decodeWord_eq_ok_iff.mpr rfl, decodeWord_eq_ok_iff.mpr rfl,
    ⟨_, rfl, skipIf_eq_writesPc (s.reg x) (s.reg y) s⟩, ⟨_, rfl, skipIf_ne_writesPc (s.reg x) (s.reg y) s⟩⟩

end Sys2Proof.Machine
end

section
/-!
SUPPORT. The family of 42_alu.md: the register writes, with and without a flag, by their registers and their frame; the results
and the flags of the model in the numbers of the rules (R121, R126 to R130); and the random byte (R131).
-/
namespace Sys2Proof.Machine

/-! ### Frames of what the ALU writes -/

section
variable {l : List Part} {s t : State} (h : KeepsAllBut l s t)
include h

theorem keepsAllBut_setReg (hv : .v ∈ l) (x : Nibble) (b : Byte) : KeepsAllBut l s (t.setReg x b) := by
  intro q hq
  cases q with
  | v => exact absurd hv hq
  | i | pc | sp | stack | dt | st | keys | fb | mem | flt | draws => exact h _ hq

theorem keepsAllBut_withDraws (hdraws : .draws ∈ l) (n : Nat) : KeepsAllBut l s { t with draws := n } := by
  intro q hq
  cases q with
  | draws => exact absurd hdraws hq
  | v | i | pc | sp | stack | dt | st | keys | fb | mem | flt => exact h _ hq

end

section
variable (s : State) (x : Nibble) {b val f flag : Byte}

theorem setReg_writesReg (hb : b = val) : WritesReg x val s (s.setReg x b) := by
  subst hb
  exact ⟨reg_setReg s x b, keepsAllBut_setReg (keepsAllBut_refl s _) List.mem_cons_self x b⟩

/-- Two register writes, the flag's the last (D13). -/
theorem setRegFlag_writesRegAndFlag (hb : b = val) (hf : f = flag) :
    WritesRegAndFlag x val flag s (s.setRegFlag x b f) := by
  subst hb hf
  have hresult : KeepsAllBut [.v] s (s.setReg x b) := (setReg_writesReg s x rfl).2
  exact ⟨reg_setRegFlag s x b f, keepsAllBut_setReg hresult List.mem_cons_self vf f⟩

end

/-! ### Results and flags as numbers -/

section
variable (a b : Byte)

theorem add_eq_ofNat_mod : a + b = BitVec.ofNat 8 ((a.toNat + b.toNat) % 256) := by
  apply BitVec.eq_of_toNat_eq
  rw [BitVec.toNat_add, BitVec.toNat_ofNat, Nat.mod_mod]

/-- The difference modulo 256, 256 being added where there is a borrow. -/
theorem sub_eq_ofNat_borrow :
    a - b = BitVec.ofNat 8 (if a.toNat < b.toNat then a.toNat + 256 - b.toNat else a.toNat - b.toNat) := by
  have ha := a.isLt
  have hb := b.isLt
  apply BitVec.eq_of_toNat_eq
  rw [BitVec.toNat_sub, BitVec.toNat_ofNat]
  split <;> omega

theorem ushiftRight_one_eq_ofNat_div : a >>> 1 = BitVec.ofNat 8 (a.toNat / 2) := by
  have ha := a.isLt
  apply BitVec.eq_of_toNat_eq
  rw [BitVec.toNat_ushiftRight, Nat.shiftRight_one, BitVec.toNat_ofNat, Nat.mod_eq_of_lt (by omega)]

theorem shiftLeft_one_eq_ofNat_mod : a <<< 1 = BitVec.ofNat 8 (a.toNat * 2 % 256) := by
  apply BitVec.eq_of_toNat_eq
  rw [BitVec.toNat_shiftLeft, Nat.shiftLeft_eq, pow_one, BitVec.toNat_ofNat, Nat.mod_mod]

theorem flagByte_decide (p : Prop) [Decidable p] : flagByte (decide p) = if p then 1 else 0 := by
  simp [flagByte]

theorem carryFlag_eq : carryFlag a b = if a.toNat + b.toNat > 255 then 1 else 0 := flagByte_decide _

theorem notBorrowFlag_eq : notBorrowFlag a b = if a.toNat < b.toNat then 0 else 1 := by
  rw [notBorrowFlag, ← decide_not, flagByte_decide, ite_not]

/-- A bit of the byte as a flag: the quotient by the bit's weight, modulo 2. -/
theorem flagByte_getLsbD (k : Nat) : flagByte (a.getLsbD k) = BitVec.ofNat 8 (a.toNat / 2 ^ k % 2) := by
  rw [BitVec.getLsbD, Nat.testBit_eq_decide_div_mod_eq, flagByte_decide]
  rcases Nat.mod_two_eq_zero_or_one (a.toNat / 2 ^ k) with h | h <;> rw [h] <;> rfl

theorem lowBitFlag_eq : lowBitFlag a = BitVec.ofNat 8 (a.toNat % 2) := by
  rw [lowBitFlag, flagByte_getLsbD, pow_zero, Nat.div_one]

/-- Bit 7 is the whole quotient by 128, a byte being below 256. -/
theorem highBitFlag_eq : highBitFlag a = BitVec.ofNat 8 (a.toNat / 128) := by
  have ha := a.isLt
  have hpow : 2 ^ 7 = 128 := rfl
  rw [highBitFlag, flagByte_getLsbD, hpow, Nat.mod_eq_of_lt (by omega)]

end

/-! ### Loads, moves and logic (R120 to R125) -/

/-- Settles O25: either instruction is one register write, the sum being modulo 256. -/
theorem loadAndAddImmediate : Obligations.LoadAndAddImmediate := by
  unfold Obligations.LoadAndAddImmediate
  intro x nn s
  exact ⟨decodeWord_eq_ok_iff.mpr rfl, decodeWord_eq_ok_iff.mpr rfl,
    ⟨_, rfl, setReg_writesReg s x rfl⟩, ⟨_, rfl, setReg_writesReg s x (add_eq_ofNat_mod (s.reg x) nn)⟩⟩

/-- Settles O26: each instruction is one register write. -/
theorem moveAndLogic : Obligations.MoveAndLogic := by
  unfold Obligations.MoveAndLogic
  intro x y s
  exact ⟨decodeWord_eq_ok_iff.mpr rfl, decodeWord_eq_ok_iff.mpr rfl, decodeWord_eq_ok_iff.mpr rfl,
    decodeWord_eq_ok_iff.mpr rfl, ⟨_, rfl, setReg_writesReg s x rfl⟩, ⟨_, rfl, setReg_writesReg s x rfl⟩,
    ⟨_, rfl, setReg_writesReg s x rfl⟩, ⟨_, rfl, setReg_writesReg s x rfl⟩⟩

/-! ### The instructions with a flag (R126 to R130) -/

/-- Settles O27: the sum modulo 256, then the carry. -/
theorem addSetsCarry : Obligations.AddSetsCarry := by
  unfold Obligations.AddSetsCarry
  intro x y s
  exact ⟨decodeWord_eq_ok_iff.mpr rfl, _, rfl, setRegFlag_writesRegAndFlag s x
    (add_eq_ofNat_mod (s.reg x) (s.reg y)) (carryFlag_eq (s.reg x) (s.reg y))⟩

/-- Settles O28: the difference modulo 256, then NOT borrow, with either operand as the minuend. -/
theorem subtractsSetNotBorrow : Obligations.SubtractsSetNotBorrow := by
  unfold Obligations.SubtractsSetNotBorrow
  intro x y s
  have hsub := fun a b : Byte =>
    setRegFlag_writesRegAndFlag s x (sub_eq_ofNat_borrow a b) (notBorrowFlag_eq a b)
  exact ⟨decodeWord_eq_ok_iff.mpr rfl, decodeWord_eq_ok_iff.mpr rfl,
    ⟨_, rfl, hsub (s.reg x) (s.reg y)⟩, ⟨_, rfl, hsub (s.reg y) (s.reg x)⟩⟩

/-- Settles O29: the shifted byte, then the bit shifted out; the arms do not look at y. -/
theorem shiftsSetTheBitShiftedOut : Obligations.ShiftsSetTheBitShiftedOut := by
  unfold Obligations.ShiftsSetTheBitShiftedOut
  intro x y s
  have hshr := setRegFlag_writesRegAndFlag s x (ushiftRight_one_eq_ofNat_div (s.reg x)) (lowBitFlag_eq (s.reg x))
  have hshl := setRegFlag_writesRegAndFlag s x (shiftLeft_one_eq_ofNat_mod (s.reg x)) (highBitFlag_eq (s.reg x))
  exact ⟨decodeWord_eq_ok_iff.mpr rfl, decodeWord_eq_ok_iff.mpr rfl, ⟨_, rfl, hshr⟩, ⟨_, rfl, hshl⟩⟩

/-! ### The random byte (R131) -/

/-- RND with the drawn byte given: one register write, and one free value counted. -/
theorem execRndWith_writes (r : Byte) (x : Nibble) (nn : Byte) (s : State) :
    ∃ t, execRndWith r x nn s = .next t ∧ (∀ q, t.reg q = if q = x then r &&& nn else s.reg q) ∧
      KeepsAllBut [.v, .draws] s t := by
  have hreg : KeepsAllBut [.v, .draws] s (s.setReg x (r &&& nn)) :=
    keepsAllBut_setReg (keepsAllBut_refl s _) (by decide) x _
  exact ⟨_, rfl, reg_setReg s x (r &&& nn), keepsAllBut_withDraws hreg (by decide) _⟩

/-- Settles O30: the step of the model is RND with the free value of its counter as the drawn byte. -/
theorem randomByteIsMasked : Obligations.RandomByteIsMasked := by
  unfold Obligations.RandomByteIsMasked
  intro x nn s
  exact ⟨decodeWord_eq_ok_iff.mpr rfl, fun r => execRndWith_writes r x nn s,
    Config.drawnByte s.draws, execRndWith_writes _ x nn s⟩

end Sys2Proof.Machine
end

section
/-!
SUPPORT. The family of 43_index_memory.md: the instructions that write I by its value and the frame (R140 to R142), and the
transfers through I that fit in memory by the bytes or registers they write and the frame (R143 to R146).
-/
namespace Sys2Proof.Machine

/-! ### Frames of what the index and memory instructions write -/

section
variable {l : List Part} {s t : State} (h : KeepsAllBut l s t)
include h

theorem keepsAllBut_withIndex (hi : .i ∈ l) (p : Word16) : KeepsAllBut l s { t with i := p } := by
  intro q hq
  cases q with
  | i => exact absurd hi hq
  | v | pc | sp | stack | dt | st | keys | fb | mem | flt | draws => exact h _ hq

theorem keepsAllBut_withMem (hmem : .mem ∈ l) (m : Memory) : KeepsAllBut l s { t with mem := m } := by
  intro q hq
  cases q with
  | mem => exact absurd hmem hq
  | v | i | pc | sp | stack | dt | st | keys | fb | flt | draws => exact h _ hq

theorem keepsAllBut_withRegs (hv : .v ∈ l) (v : Regs) : KeepsAllBut l s { t with v := v } := by
  intro q hq
  cases q with
  | v => exact absurd hv hq
  | i | pc | sp | stack | dt | st | keys | fb | mem | flt | draws => exact h _ hq

end

theorem withIndex_keepsAllBut (s : State) (p : Word16) : KeepsAllBut [.i] s { s with i := p } :=
  keepsAllBut_withIndex (keepsAllBut_refl s _) List.mem_cons_self p

theorem withMem_keepsAllBut (s : State) (m : Memory) : KeepsAllBut [.mem] s { s with mem := m } :=
  keepsAllBut_withMem (keepsAllBut_refl s _) List.mem_cons_self m

/-! ### The bytes of the transfers (R143, R145) -/

/-- The last address of the three is at most 4095. -/
theorem bcdDigits_fits {p : Nat} (hp : p ≤ 4093) (b : Byte) : p + (bcdDigits b).length ≤ Config.memSize := by
  rw [bcdDigits_length]
  unfold Config.memSize
  omega

/-- The digits of `b` where `a` is one of the three addresses from `p` up, every other byte as before. -/
theorem read_copyBytes_bcdDigits {m : Memory} (hwf : m.wf = true) {p : Nat} (hp : p ≤ 4093) (b : Byte) (a : Nat) :
    (copyBytes m p (bcdDigits b)).read a =
      if a = p then BitVec.ofNat 8 (b.toNat / 100)
      else if a = p + 1 then BitVec.ofNat 8 (b.toNat / 10 % 10)
      else if a = p + 2 then BitVec.ofNat 8 (b.toNat % 10)
      else m.read a := by
  rw [read_copyBytes hwf _ _ (.inr (bcdDigits_fits hp b)), bcdDigits_length]
  by_cases hin : p ≤ a ∧ a < p + 3
  · obtain rfl | rfl | rfl : a = p ∨ a = p + 1 ∨ a = p + 2 := by omega
    all_goals simp [bcdDigits]
  · rw [if_neg hin, if_neg (by omega), if_neg (by omega), if_neg (by omega)]

theorem bytesAtI_length (s : State) (n : Nat) : (bytesAtI s n).length = n := by
  simp [bytesAtI]

theorem bytesAtI_getD (s : State) {k n : Nat} (h : k < n) : (bytesAtI s n).getD k 0 = s.mem.read (s.i.toNat + k) := by
  simp [bytesAtI, h]

/-- A register after the load of V0 to Vx: its byte from I up, or, above Vx, as before. -/
theorem loadRegs_bytesAtI_get (s : State) (x k : Nibble) :
    (loadRegs s.v 0 (bytesAtI s (x.toNat + 1))).get k.toFin =
      if k.toNat ≤ x.toNat then s.mem.read (s.i.toNat + k.toNat) else s.reg k := by
  have hval : k.toFin.val = k.toNat := rfl
  rw [loadRegs_get, bytesAtI_length, hval, Nat.sub_zero]
  by_cases hk : k.toNat ≤ x.toNat
  · rw [if_pos (by omega), if_pos hk, bytesAtI_getD s (by omega)]
  · rw [if_neg (by omega), if_neg hk]
    rfl

/-! ### Transfers through I (R143 to R146) -/

/-- Settles O33: the three digits fit, so the store is the copy of them. -/
theorem bcdStoresThreeDigits : Obligations.BcdStoresThreeDigits := by
  unfold Obligations.BcdStoresThreeDigits
  intro x s hwf hi
  exact ⟨_, storeAtI_fits _ s (.inr (bcdDigits_fits hi (s.reg x))), read_copyBytes_bcdDigits hwf hi (s.reg x),
    withMem_keepsAllBut s _⟩

/-- Settles O34: V0 to Vx fit, so the store is the copy of them, which reads as before outside I to I + x. -/
theorem storeRegistersAtI : Obligations.StoreRegistersAtI := by
  unfold Obligations.StoreRegistersAtI
  intro x s hwf hfits
  refine ⟨_, exec_ldMemVx_fits hfits, fun k hk => read_copyBytes_regsUpTo hfits hwf hk, fun a ha => ?_,
    withMem_keepsAllBut s _⟩
  have hout : ¬ (s.i.toNat ≤ a ∧ a < s.i.toNat + (s.regsUpTo x).length) := by
    rw [regsUpTo_length]
    omega
  exact (read_copyBytes hwf _ _ (regsUpTo_fits hfits) a).trans (if_neg hout)

/-- Settles O35: the x + 1 bytes fit, so the load writes them to V0 to Vx. -/
theorem loadRegistersFromI : Obligations.LoadRegistersFromI := by
  unfold Obligations.LoadRegistersFromI
  intro x s hi
  have hfits : s.i.toNat + (x.toNat + 1) ≤ Config.memSize := by
    unfold Config.memSize
    omega
  refine ⟨_, loadFromI_fits _ s (.inr hfits), loadRegs_bytesAtI_get s x, ?_⟩
  exact keepsAllBut_withRegs (keepsAllBut_refl s _) List.mem_cons_self _

/-! ### Writes of I (R140 to R142) -/

/-- The sum of R141 wraps at 16 bits. -/
theorem add_zextByte_toNat (p : Word16) (b : Byte) : (p + zextByte b).toNat = (p.toNat + b.toNat) % 65536 := by
  have hb : (zextByte b).toNat = b.toNat := BitVec.toNat_setWidth_of_le (by decide)
  rw [BitVec.toNat_add, hb]

/-- The product of R142 is at most 1275, so it is not reduced. -/
theorem glyphAddr_toNat (b : Byte) : (glyphAddr b).toNat = b.toNat * 5 := by
  have hb := b.isLt
  unfold glyphAddr Config.glyphHeight
  rw [BitVec.toNat_ofNat, Nat.mod_eq_of_lt (by omega)]

/-- Settles O31: either instruction is a write of I alone. -/
theorem indexLoadAndAdd : Obligations.IndexLoadAndAdd := by
  unfold Obligations.IndexLoadAndAdd
  intro s
  refine ⟨fun nnn => ?_, fun x => ?_⟩
  · have hnnn : (zextAddr nnn).toNat = nnn.toNat := targetOf_toNat nnn
    exact ⟨decodeWord_eq_ok_iff.mpr rfl, _, rfl, hnnn, withIndex_keepsAllBut s _⟩
  · exact ⟨decodeWord_eq_ok_iff.mpr rfl, _, rfl, add_zextByte_toNat s.i (s.reg x), withIndex_keepsAllBut s _⟩

/-- Settles O32: a write of I alone, with the product of R142. -/
theorem glyphAddressIsFiveTimes : Obligations.GlyphAddressIsFiveTimes := by
  unfold Obligations.GlyphAddressIsFiveTimes
  intro x s
  exact ⟨decodeWord_eq_ok_iff.mpr rfl, _, rfl, glyphAddr_toNat (s.reg x), withIndex_keepsAllBut s _⟩

end Sys2Proof.Machine
end

section
/-!
SUPPORT. The family of 44_display.md: CLS (R150); DRW as one array operation on the framebuffer with the mask of the sprite
(R151, R152), from which a second draw of the same sprite undoes the first; and the fault of a sprite that does not fit.
-/
namespace Sys2Proof.Machine

/-! ### Frames of what the display instructions write -/

theorem keepsAllBut_withFb {l : List Part} {s t : State} (h : KeepsAllBut l s t) (hfb : .fb ∈ l) (fb : Framebuffer) :
    KeepsAllBut l s { t with fb := fb } := by
  intro q hq
  cases q with
  | fb => exact absurd hfb hq
  | v | i | pc | sp | stack | dt | st | keys | mem | flt | draws => exact h _ hq

/-! ### CLS (R150) -/

/-- Settles O39: a write of the framebuffer alone. -/
theorem clearScreenUnsetsEveryPixel : Obligations.ClearScreenUnsetsEveryPixel := by
  unfold Obligations.ClearScreenUnsetsEveryPixel
  exact ⟨decodeWord_eq_ok_iff.mpr rfl, fun s =>
    ⟨_, rfl, pixel_clear, keepsAllBut_withFb (keepsAllBut_refl s _) List.mem_cons_self .clear⟩⟩

/-! ### What DRW does, by whether its sprite lies in memory (R151) -/

/-- The blitter's result for `DRW Vx, Vy, n` in the state `s`, whose sprite is the `n` bytes from I up. -/
def drawnSprite (x y n : Nibble) (s : State) : Blit :=
  Blit.sprite ⟨s.fb, false⟩ (s.reg x).toNat (s.reg y).toNat (bytesAtI s n.toNat)

/-- The state after a draw: the blitter's framebuffer, and its collision bit in VF. -/
def afterDraw (b : Blit) (s : State) : State := State.setReg { s with fb := b.fb } vf (collisionFlag b.collision)

theorem reg_afterDraw (b : Blit) (s : State) (r : Nibble) :
    (afterDraw b s).reg r = if r = 0xF then collisionFlag b.collision else s.reg r :=
  reg_setReg { s with fb := b.fb } vf _ r

theorem afterDraw_keepsAllBut (b : Blit) (s : State) : KeepsAllBut [.v, .fb] s (afterDraw b s) :=
  keepsAllBut_setReg (keepsAllBut_withFb (keepsAllBut_refl s _) (by decide) b.fb) (by decide) vf _

theorem collisionFlag_eq (c : Bool) : collisionFlag c = if c = true then 1 else 0 := rfl

/-- R172's first address out of range, in the words of the claims. -/
theorem firstBadAddress_eq (a : Nat) : firstBadAddress a = firstOutOfRange a := by
  unfold firstBadAddress firstOutOfRange Config.memSize
  split <;> omega

section
variable (x y n : Nibble) (s : State)

theorem exec_drw : exec (.drw x y n) s = execDrw x y n s := rfl

theorem exec_drw_fits (h : n.toNat = 0 ∨ s.i.toNat + n.toNat ≤ 4096) :
    exec (.drw x y n) s = .next (afterDraw (drawnSprite x y n s) s) := by
  rw [exec_drw, execDrw, memReads_ok _ _ _ h]
  rfl

theorem exec_drw_faults (hn : n.toNat ≠ 0) (h : 4096 < s.i.toNat + n.toNat) :
    exec (.drw x y n) s = .next (raiseInStep .memOutOfRange (firstOutOfRange s.i.toNat) s) := by
  rw [exec_drw, execDrw, memReads_error _ _ _ hn h]

/-- The pixels where the sprite's set bits land are the mask of R152. -/
theorem drawnSprite_inverts : Inverts (SpriteMask s x y n) ⟨s.fb, false⟩ (drawnSprite x y n s) := by
  have hn := n.isLt
  have hlen : (bytesAtI s n.toNat).length = n.toNat := bytesAtI_length s n.toNat
  refine inverts_congr (fun px py => ?_) (sprite_inverts _ _ _ _ (by omega))
  unfold SpriteMask
  refine exists_congr fun ly => exists_congr fun lx => ?_
  rw [hlen]
  refine and_congr_right fun hly => ?_
  rw [bytesAtI_getD s hly, spriteBit]

end

/-- Settles O42: the sprite bytes are read before anything is written, so the fault has no other effect. -/
theorem drawBeyondMemoryFaults : Obligations.DrawBeyondMemoryFaults := by
  unfold Obligations.DrawBeyondMemoryFaults
  intro x y n s hn h
  rw [firstBadAddress_eq]
  exact ⟨_, exec_drw_faults x y n s hn h, raiseInStep_faultsWith _ _ s⟩

/-- Settles O40: the blitter inverts the mask (`drawnSprite_inverts`), and VF is its collision bit. -/
theorem drawXorsTheSpriteMask : Obligations.DrawXorsTheSpriteMask := by
  unfold Obligations.DrawXorsTheSpriteMask
  intro x y n s h
  obtain ⟨hpixels, hcollision⟩ := drawnSprite_inverts x y n s
  have hmeets : (drawnSprite x y n s).collision = true ↔
      ∃ px py, SpriteMask s x y n px py ∧ s.fb.pixel px py = true := by
    rw [hcollision]
    exact or_iff_right Bool.false_ne_true
  refine ⟨_, exec_drw_fits x y n s h, hpixels, fun hm => ?_, fun hm => ?_, fun r hr => ?_, afterDraw_keepsAllBut _ s⟩
  · rw [reg_afterDraw, if_pos rfl, collisionFlag_eq, if_pos (hmeets.mpr hm)]
  · rw [reg_afterDraw, if_pos rfl, collisionFlag_eq, if_neg (hm ∘ hmeets.mp)]
  · rw [reg_afterDraw, if_neg hr]

/-! ### Drawing twice (R152 (a), (b)) -/

/-- The mask depends on the coordinates, I and memory alone. -/
theorem spriteMask_congr {x y : Nibble} {s u : State} (hx : u.reg x = s.reg x) (hy : u.reg y = s.reg y)
    (hi : u.i = s.i) (hmem : ∀ a, u.mem.read a = s.mem.read a) (n : Nibble) : SpriteMask u x y n = SpriteMask s x y n := by
  unfold SpriteMask
  simp only [hx, hy, hi, hmem]

/-- Settles O41: both draws invert the same mask (O40), so a pixel of it is restored; and the first turned on exactly the
pixels of the mask that the second finds set. -/
theorem secondIdenticalDrawRestores : Obligations.SecondIdenticalDrawRestores := by
  unfold Obligations.SecondIdenticalDrawRestores
  intro x y n s t u h hfirst hx hy hi hmem hfb
  obtain ⟨t', hfirst', hst, -⟩ := drawXorsTheSpriteMask x y n s h
  obtain rfl : t = t' := Host.Outcome.next.inj (hfirst.symm.trans hfirst')
  obtain ⟨v, hsecond, huv, hset, hunset, -⟩ := drawXorsTheSpriteMask x y n u (by rwa [hi])
  rw [spriteMask_congr hx hy hi hmem] at huv hset hunset
  have hturnedOn : ∀ px py, (SpriteMask s x y n px py ∧ u.fb.pixel px py = true) ↔
      (s.fb.pixel px py = false ∧ t.fb.pixel px py = true) := by
    intro px py
    rw [hfb]
    refine and_congr_left fun ht => ?_
    by_cases hm : SpriteMask s x y n px py
    · rw [(hst px py).1 hm, Bool.not_eq_true'] at ht
      exact iff_of_true hm ht
    · rw [(hst px py).2 hm] at ht
      exact iff_of_false hm (ne_false_of_eq_true ht)
  simp only [hturnedOn] at hset hunset
  refine ⟨v, hsecond, fun px py => ?_, hset, hunset⟩
  by_cases hm : SpriteMask s x y n px py
  · rw [(huv px py).1 hm, hfb, (hst px py).1 hm, Bool.not_not]
  · rw [(huv px py).2 hm, hfb, (hst px py).2 hm]

end Sys2Proof.Machine
end

section
/-!
SUPPORT. The family of 45_keypad_timers.md: the skips on a key (R160, R161) and the key wait (R162), by what the keypad holds;
the timer moves (R163 to R165); and any number of ticks with no step between them, as one write of both timers (R183, R184).
-/
namespace Sys2Proof.Machine

/-! ### The skips on a key (R160, R161) -/

section
variable {x : Nibble} {k : Fin 16} {s : State} (h : (s.reg x).toNat = k.val)
include h

theorem skipOnKey_inRange (down : Bool) : skipOnKey x down s = .next (s.skipIf (s.keys.get k == down)) := by
  have hlt : (s.reg x).toNat < 16 := h ▸ k.isLt
  have hk : (⟨(s.reg x).toNat, hlt⟩ : Fin 16) = k := Fin.ext h
  rw [skipOnKey, keyAt_some s _ hlt, hk]

theorem skipOnKey_writesPc (down : Bool) :
    ∃ t, skipOnKey x down s = .next t ∧ WritesPc (if s.keys.get k = down then s.pc + 2 else s.pc) s t := by
  refine ⟨_, skipOnKey_inRange h down, ?_⟩
  rw [skipIf_eq]
  simp only [beq_iff_eq]
  exact setPc_writesPc s _

end

/-- Settles O43: SKP and SKNP are the skip on a key that is down, up. -/
theorem skipsOnKey : Obligations.SkipsOnKey := by
  unfold Obligations.SkipsOnKey
  intro x k s h
  have hup : (if s.keys.get k = false then s.pc + 2 else s.pc) = if s.keys.get k = true then s.pc else s.pc + 2 := by
    cases s.keys.get k <;> rfl
  exact ⟨skipOnKey_writesPc h true, hup ▸ skipOnKey_writesPc h false⟩

/-! ### The key wait (R162) -/

/-- KEYSEL answers the lowest key that is down (D11). -/
theorem keySel_eq_some {keys : Vector Bool 16} {k : Fin 16} (hdown : keys.get k = true)
    (hlower : ∀ j, j < k → keys.get j = false) : keySel keys = some k := by
  cases hsel : keySel keys with
  | none => exact absurd ((keySel_none.mp hsel k).symm.trans hdown) Bool.false_ne_true
  | some m =>
    obtain ⟨hmdown, hmlower⟩ := keySel_some hsel
    rcases lt_trichotomy m k with hlt | rfl | hgt
    · exact absurd ((hlower m hlt).symm.trans hmdown) Bool.false_ne_true
    · rfl
    · exact absurd ((hmlower k hgt).symm.trans hdown) Bool.false_ne_true

theorem exec_ldVxK (x : Nibble) (s : State) : exec (.ldVxK x) s = execLdVxK x s := rfl

theorem exec_ldVxK_some {s : State} {k : Fin 16} (h : keySel s.keys = some k) (x : Nibble) :
    exec (.ldVxK x) s = .next (s.setReg x (keyByte k)) := by
  rw [exec_ldVxK, execLdVxK, h]

theorem exec_ldVxK_none {s : State} (h : keySel s.keys = none) (x : Nibble) :
    exec (.ldVxK x) s = .next s.rewind := by
  rw [exec_ldVxK, execLdVxK, h]

/-- Settles O45: KEYSEL answers that key, and its index is a register write. -/
theorem keyWaitStoresTheLowestKeyDown : Obligations.KeyWaitStoresTheLowestKeyDown := by
  unfold Obligations.KeyWaitStoresTheLowestKeyDown
  intro x k s hdown hlower
  exact ⟨decodeWord_eq_ok_iff.mpr rfl, _, exec_ldVxK_some (keySel_eq_some hdown hlower) x, setReg_writesReg s x rfl⟩

/-- Settles O46: the step is the key wait after the advance (O6), and its rewind takes the advance back. -/
theorem keyWaitWithNoKeyRepeats : Obligations.KeyWaitWithNoKeyRepeats := by
  unfold Obligations.KeyWaitWithNoKeyRepeats
  intro x s hup
  have hsel : keySel s.keys = none := keySel_none.mpr hup
  refine ⟨⟨_, exec_ldVxK_none hsel x, setPc_writesPc s _⟩, fun hlive hpc hw => ?_⟩
  have hdecode := decodeWord_eq_ok_iff (i := .ldVxK x).mpr hw.symm
  calc
    step s = exec (.ldVxK x) s.advance := stepRunsTheDecodedInstruction s _ hlive hpc hdecode
    _ = .next s.advance.rewind := exec_ldVxK_none (s := s.advance) hsel x
    _ = .next s := by rw [rewind_advance]

/-! ### Ticks with no step between them (R183, R184) -/

theorem countDown_toNat (t : Byte) : (countDown t).toNat = t.toNat - 1 := by
  unfold countDown
  split
  case isTrue h =>
    subst h
    rfl
  case isFalse h =>
    have hpos : t.toNat ≠ 0 := fun h0 => h (BitVec.eq_of_toNat_eq h0)
    bv_omega

/-- A timer after `n` ticks. -/
theorem countDown_iterate_toNat (n : Nat) (t : Byte) : (countDown^[n] t).toNat = t.toNat - n := by
  induction n generalizing t with
  | zero => rfl
  | succ n ih => rw [Function.iterate_succ_apply, ih, countDown_toNat, Nat.sub_sub, Nat.add_comm]

section
variable {s : State} (hlive : s.flt.cause = .noFault)
include hlive

theorem tick_live : tick s = ({ s with dt := countDown s.dt, st := countDown s.st }, s.st != 0) :=
  if_neg (Bool.eq_false_iff.mp (faulted_eq_false_iff.mpr hlive))

/-- A tick does not look at anything but the timers and FLT, so `n` ticks count either timer down `n` times. -/
theorem tickTimes_live (n : Nat) :
    tickTimes n s = { s with dt := countDown^[n] s.dt, st := countDown^[n] s.st } := by
  induction n generalizing s with
  | zero => rfl
  | succ n ih =>
    rw [tickTimes, tick_live hlive]
    exact ih hlive

theorem tickTimes_dt_toNat (n : Nat) : (tickTimes n s).dt.toNat = s.dt.toNat - n := by
  rw [tickTimes_live hlive]
  exact countDown_iterate_toNat n s.dt

theorem tickTimes_st_toNat (n : Nat) : (tickTimes n s).st.toNat = s.st.toNat - n := by
  rw [tickTimes_live hlive]
  exact countDown_iterate_toNat n s.st

theorem tickTimes_flt (n : Nat) : (tickTimes n s).flt = s.flt := by
  rw [tickTimes_live hlive]

/-- A tick sounds iff ST is above 0 at its start (D17). -/
theorem tick_buzz : (tick s).2 = decide (0 < s.st.toNat) := by
  rw [tick_live hlive, Bool.eq_iff_iff, bne_iff_ne, decide_eq_true_iff, Nat.pos_iff_ne_zero]
  exact not_congr BitVec.toNat_eq

/-- The tick after `n` others sounds iff ST was above `n` before them. -/
theorem tick_tickTimes_buzz (n : Nat) : (tick (tickTimes n s)).2 = decide (n < s.st.toNat) := by
  have hlive' : (tickTimes n s).flt.cause = .noFault := by rw [tickTimes_flt hlive, hlive]
  rw [tick_buzz hlive', tickTimes_st_toNat hlive]
  exact decide_eq_decide.mpr Nat.sub_pos_iff_lt

end

/-! ### The timer moves (R163 to R165) -/

section
variable {l : List Part} {s t : State} (h : KeepsAllBut l s t)
include h

theorem keepsAllBut_withDt (hdt : .dt ∈ l) (b : Byte) : KeepsAllBut l s { t with dt := b } := by
  intro q hq
  cases q with
  | dt => exact absurd hdt hq
  | v | i | pc | sp | stack | st | keys | fb | mem | flt | draws => exact h _ hq

theorem keepsAllBut_withSt (hst : .st ∈ l) (b : Byte) : KeepsAllBut l s { t with st := b } := by
  intro q hq
  cases q with
  | st => exact absurd hst hq
  | v | i | pc | sp | stack | dt | keys | fb | mem | flt | draws => exact h _ hq

end

/-- Settles O47: each move is one write, which leaves FLT as it was, so the ticks after it count the written timer down. -/
theorem timerMoves : Obligations.TimerMoves := by
  unfold Obligations.TimerMoves
  intro x s
  refine ⟨decodeWord_eq_ok_iff.mpr rfl, decodeWord_eq_ok_iff.mpr rfl, decodeWord_eq_ok_iff.mpr rfl,
    ⟨_, rfl, setReg_writesReg s x rfl⟩, ⟨_, rfl, rfl, ?_, ?_⟩, ⟨_, rfl, rfl, ?_, ?_⟩⟩
  · exact keepsAllBut_withDt (keepsAllBut_refl s _) List.mem_cons_self _
  · exact fun hlive => tickTimes_dt_toNat (s := { s with dt := s.reg x }) hlive
  · exact keepsAllBut_withSt (keepsAllBut_refl s _) List.mem_cons_self _
  · exact fun hlive => tick_tickTimes_buzz (s := { s with st := s.reg x }) hlive

end Sys2Proof.Machine
end

section
/-!
SUPPORT. The family of 60_exceptions.md: what the host's events do in a machine that is not FAULTED. The ticks (R183, R184) as
one write of both timers, and the key events (R185) as one write of the keypad.
-/
namespace Sys2Proof.Machine

section
variable {s : State} (hlive : s.flt.cause = .noFault)
include hlive

theorem event_live (e : Event) : event e s = eventLive e s := by
  simp [event, faulted_eq_false_iff.mpr hlive]

/-! ### The frame of the ticks (R183) -/

theorem tickTimes_keepsAllBut (n : Nat) : KeepsAllBut [.dt, .st] s (tickTimes n s) := by
  rw [tickTimes_live hlive]
  have hdt : KeepsAllBut [.dt, .st] s { s with dt := countDown^[n] s.dt } :=
    keepsAllBut_withDt (keepsAllBut_refl s _) (by decide) _
  exact keepsAllBut_withSt hdt (by decide) _

/-! ### The key events (R185) -/

theorem setKey_live (k : Nibble) (down : Bool) :
    setKey k down s = { s with keys := s.keys.set k.toFin down } :=
  if_neg (Bool.eq_false_iff.mp (faulted_eq_false_iff.mpr hlive))

theorem setKey_keys_get (k : Nibble) (down : Bool) (j : Fin 16) :
    (setKey k down s).keys.get j = if j.val = k.toNat then down else s.keys.get j := by
  have hk : k.toFin.val = j.val ↔ j.val = k.toNat := eq_comm
  rw [setKey_live hlive]
  simp only [Vector.get_eq_getElem, Vector.getElem_set, hk]

theorem setKey_keepsAllBut (k : Nibble) (down : Bool) : KeepsAllBut [.keys] s (setKey k down s) := by
  rw [setKey_live hlive]
  intro q hq
  cases q with
  | keys => exact absurd List.mem_cons_self hq
  | v | i | pc | sp | stack | dt | st | fb | mem | flt | draws => exact keepsAllBut_refl s _ _ hq

end

/-! ### The statements -/

/-- Settles O49: `n` ticks are one write of both timers, each counted down `n` times (`tickTimes_live`, by induction on `n`). -/
theorem timersAfterManyTicks : Obligations.TimersAfterManyTicks := by
  unfold Obligations.TimersAfterManyTicks
  intro n s hlive
  exact ⟨tickTimes_dt_toNat hlive n, tickTimes_st_toNat hlive n, tick_tickTimes_buzz hlive n,
    tickTimes_keepsAllBut hlive n⟩

/-- Settles O48: the state after one tick is O49's at `n = 1`, and its buzz tells ST at its start. -/
theorem tickCountsDown : Obligations.TickCountsDown := by
  unfold Obligations.TickCountsDown
  intro s hlive
  have hone : (tick s).1 = tickTimes 1 s := rfl
  obtain ⟨hdt, hst, -, hframe⟩ := timersAfterManyTicks 1 s hlive
  rw [← hone] at hdt hst hframe
  exact ⟨event_live hlive .tick, hdt, hst, tick_buzz hlive, hframe⟩

/-- Settles O50: both events are `setKey`, whose one write moves no key but its own. -/
theorem keyEventsSetOneKey : Obligations.KeyEventsSetOneKey := by
  unfold Obligations.KeyEventsSetOneKey
  intro k s hlive
  exact ⟨⟨setKey k true s, event_live hlive (.keyDown k), setKey_keys_get hlive k true, setKey_keepsAllBut hlive k true⟩,
    ⟨setKey k false s, event_live hlive (.keyUp k), setKey_keys_get hlive k false, setKey_keepsAllBut hlive k false⟩⟩

end Sys2Proof.Machine
end

section
/-!
SUPPORT. The family of 70_reset_and_hazards.md: the reset event in every state (R200), and the load event in a machine that is
not FAULTED, of a program that fits (R203) and of one that does not (R204).
-/
namespace Sys2Proof.Machine

/-! ### The reset event (R200) -/

/-- Reset is the one event that does not look at FLT (R179). -/
theorem event_reset (s : State) : event .reset s = .next (hostReset s) := by
  have hpasses : (s.faulted && Event.reset != .reset) = false := by simp
  rw [event, hpasses]
  rfl

theorem hostReset_keepsAllBut (s : State) : KeepsAllBut [.draws] State.reset (hostReset s) :=
  keepsAllBut_withDraws (keepsAllBut_refl State.reset _) List.mem_cons_self _

/-! ### The load event (R203, R204) -/

section
variable {s : State} (hlive : s.flt.cause = .noFault) {bytes : List Byte}
include hlive

theorem hostLoad_live :
    hostLoad bytes s =
      if Config.loadOffset + bytes.length > Config.memSize then
        raise .loadOverflow (Config.loadOffset + bytes.length) s
      else { s with mem := copyBytes s.mem Config.loadOffset bytes, pc := BitVec.ofNat 16 Config.loadOffset } :=
  if_neg (Bool.eq_false_iff.mp (faulted_eq_false_iff.mpr hlive))

theorem hostLoad_fits (h : Config.loadOffset + bytes.length ≤ Config.memSize) :
    hostLoad bytes s =
      { s with mem := copyBytes s.mem Config.loadOffset bytes, pc := BitVec.ofNat 16 Config.loadOffset } := by
  rw [hostLoad_live hlive, if_neg (Nat.not_lt.mpr h)]

theorem hostLoad_overflows (h : Config.memSize < Config.loadOffset + bytes.length) :
    hostLoad bytes s = raise .loadOverflow (Config.loadOffset + bytes.length) s := by
  rw [hostLoad_live hlive, if_pos h]

theorem hostLoad_fits_keepsAllBut (h : Config.loadOffset + bytes.length ≤ Config.memSize) :
    KeepsAllBut [.pc, .mem] s (hostLoad bytes s) := by
  have hmem : KeepsAllBut [.pc, .mem] s { s with mem := copyBytes s.mem Config.loadOffset bytes } :=
    keepsAllBut_withMem (keepsAllBut_refl s _) (by decide) _
  rw [hostLoad_fits hlive h]
  exact keepsAllBut_setPc hmem (by decide) _

end

/-- A program fits from 512 on iff it has at most 3584 bytes (R203). -/
theorem loadOffset_add_le_memSize_iff {n : Nat} : Config.loadOffset + n ≤ Config.memSize ↔ n ≤ 3584 := by
  unfold Config.loadOffset Config.memSize
  omega

/-! ### The statements -/

/-- Settles O12: the load is one copy and one write of PC, and the copy's bytes are read back from 512 on. -/
theorem loadCopiesTheProgram : Obligations.LoadCopiesTheProgram := by
  unfold Obligations.LoadCopiesTheProgram
  intro s bytes hlive hwf hlen
  have hfits : Config.loadOffset + bytes.length ≤ Config.memSize := loadOffset_add_le_memSize_iff.mpr hlen
  refine ⟨hostLoad bytes s, event_live hlive (.load bytes), ?pc, ?mem, hostLoad_fits_keepsAllBut hlive hfits⟩
  case pc =>
    rw [hostLoad_fits hlive hfits]
    rfl
  case mem =>
    rw [hostLoad_fits hlive hfits]
    exact read_copyBytes hwf Config.loadOffset bytes (.inr hfits)

/-- Settles O11: FAULTED or not, the next state is `State.reset` but for the model's own counter. -/
theorem resetEventRestoresTheResetState : Obligations.ResetEventRestoresTheResetState := by
  unfold Obligations.ResetEventRestoresTheResetState
  intro s
  exact ⟨hostReset s, event_reset s, hostReset_keepsAllBut s⟩

/-- Settles O13: the length is checked before any byte is copied, and raising the fault writes FLT alone. -/
theorem loadOverflowChangesNothingElse : Obligations.LoadOverflowChangesNothingElse := by
  unfold Obligations.LoadOverflowChangesNothingElse
  intro s bytes hlive hlen
  have hover : Config.memSize < Config.loadOffset + bytes.length :=
    Nat.not_le.mp (mt loadOffset_add_le_memSize_iff.mp (Nat.not_le.mpr hlen))
  calc
    event (.load bytes) s = .next (hostLoad bytes s) := event_live hlive (.load bytes)
    _ = .next (raise .loadOverflow (Config.loadOffset + bytes.length) s) := by rw [hostLoad_overflows hlive hover]
    _ = .next { s with flt := ⟨.loadOverflow, BitVec.ofNat 16 (512 + bytes.length)⟩ } := rfl

end Sys2Proof.Machine
end

section
/-!
SUPPORT. The faults that an executing instruction raises (60_exceptions.md R170 to R178): of the stack (R173, R174), of a key
index (R175), and of a transfer through I that does not fit in memory (R172), where part of the transfer may have happened.
-/
namespace Sys2Proof.Machine

/-! ### Frames composed -/

theorem Part.same_trans {p : Part} {s t u : State} (hst : p.same s t) (htu : p.same t u) : p.same s u := by
  cases p with
  | v | stack | keys | mem => exact fun k => (htu k).trans (hst k)
  | fb => exact fun x y => (htu x y).trans (hst x y)
  | i | pc | sp | dt | st | flt | draws => exact htu.trans hst

theorem keepsAllBut_trans {l l' : List Part} {s t u : State} (hst : KeepsAllBut l s t) (htu : KeepsAllBut l' t u) :
    KeepsAllBut (l' ++ l) s u := by
  intro p hp
  rw [List.mem_append, not_or] at hp
  exact Part.same_trans (hst p hp.2) (htu p hp.1)

theorem withRegs_keepsAllBut (s : State) (v : Regs) : KeepsAllBut [.v] s { s with v := v } :=
  keepsAllBut_withRegs (keepsAllBut_refl s _) List.mem_cons_self v

/-- A fault raised in `t`, which differs from `s` in what may have happened of a transfer before it (R178). -/
theorem raiseInStep_faultsWith_partly {partly : List Part} {s t : State} (h : KeepsAllBut partly s t)
    (hpc : .pc ∉ partly) (c : Cause) (n : Nat) :
    FaultsWith c (BitVec.ofNat 16 n) partly s (raiseInStep c n t) := by
  have hpc' : t.pc = s.pc := h .pc hpc
  exact ⟨raiseInStep_flt t c n, hpc' ▸ raiseInStep_pc t c n, keepsAllBut_trans h (raiseInStep_keepsAllBut c n t)⟩

/-! ### The stack (R173, R174) and the key index (R175) -/

/-- Settles O19: no push fits at SP = 16 and above, and a pop finds no entry at SP = 0 nor above 16. -/
theorem stackBoundsFault : Obligations.StackBoundsFault := by
  unfold Obligations.StackBoundsFault
  refine ⟨fun nnn s hfull => ?_, fun s hempty => ?_, fun s hbeyond => execRet_noEntry hbeyond⟩
  · have hfault := raiseInStep_faultsWith .stackOverflow s.sp.toNat s
    rw [BitVec.ofNat_toNat, BitVec.setWidth_eq] at hfault
    exact ⟨_, execCall_overflow nnn (Nat.not_lt.mpr hfull), hfault⟩
  · exact ⟨_, execRet_underflow hempty, raiseInStep_faultsWith .stackUnderflow 0 s⟩

theorem skipOnKey_outOfRange {x : Nibble} {s : State} (h : 15 < (s.reg x).toNat) (down : Bool) :
    skipOnKey x down s = .next (raiseInStep .keyIndexOutOfRange (s.reg x).toNat s) := by
  rw [skipOnKey, keyAt_none s _ h]

/-- Settles O44: SKP and SKNP look up the key before they compare it. -/
theorem keyIndexAboveFifteenFaults : Obligations.KeyIndexAboveFifteenFaults := by
  unfold Obligations.KeyIndexAboveFifteenFaults
  intro x s h
  have hfault := raiseInStep_faultsWith .keyIndexOutOfRange (s.reg x).toNat s
  exact ⟨⟨_, skipOnKey_outOfRange h true, hfault⟩, ⟨_, skipOnKey_outOfRange h false, hfault⟩⟩

/-! ### Transfers through I that do not fit in memory (R172, R178) -/

/-- A store that does not fit: each byte has its old value, or is in range and has the value that was being stored there. -/
theorem storeAtI_beyond {bs : List Byte} {s : State} (hwf : s.mem.wf = true) (hbs : bs ≠ [])
    (h : 4096 < s.i.toNat + bs.length) :
    ∃ t, storeAtI bs s = .next t ∧
      FaultsWith .memOutOfRange (BitVec.ofNat 16 (firstBadAddress s.i.toNat)) [.mem] s t ∧
      ∀ a, t.mem.read a = s.mem.read a ∨ (s.i.toNat ≤ a ∧ a < 4096 ∧
        ∃ k, k < bs.length ∧ a = s.i.toNat + k ∧ t.mem.read a = bs.getD k 0) := by
  rw [firstBadAddress_eq]
  refine ⟨_, storeAtI_faults bs s hbs h,
    raiseInStep_faultsWith_partly (withMem_keepsAllBut s _) (by decide) _ _, fun a => ?_⟩
  rw [raiseInStep_mem]
  refine (read_memWritesSome_cases _ hwf s.i.toNat 0 bs a).imp_right ?_
  rintro ⟨hlow, hhigh, hrange, hread⟩
  exact ⟨hlow, hrange, a - s.i.toNat, by omega, by omega, hread⟩

/-- A load that does not fit: each register has its old value, or its byte is in range and it has that byte. -/
theorem loadFromI_beyond {n : Nat} {s : State} (hn : n ≠ 0) (h : 4096 < s.i.toNat + n) :
    ∃ t, loadFromI n s = .next t ∧
      FaultsWith .memOutOfRange (BitVec.ofNat 16 (firstBadAddress s.i.toNat)) [.v] s t ∧
      ∀ r : Nibble, t.reg r = s.reg r ∨
        (r.toNat < n ∧ s.i.toNat + r.toNat < 4096 ∧ t.reg r = s.mem.read (s.i.toNat + r.toNat)) := by
  rw [firstBadAddress_eq]
  refine ⟨_, loadFromI_faults n s hn h, raiseInStep_faultsWith_partly (withRegs_keepsAllBut s _) (by decide) _ _,
    fun r => ?_⟩
  rw [raiseInStep_reg]
  refine (loadRegsSome_cases _ s.mem s.v s.i.toNat 0 n r.toFin).imp_right ?_
  rintro ⟨-, hlt, hrange, hread⟩
  exact ⟨by rwa [Nat.zero_add] at hlt, hrange, hread⟩

/-- Settles O36: the two stores and the load that do not fit, the third digit of Fx33 being always out of range. -/
theorem transferBeyondMemoryFaults : Obligations.TransferBeyondMemoryFaults := by
  unfold Obligations.TransferBeyondMemoryFaults
  intro x s hwf
  refine ⟨fun hi => ?bcd, fun hi => ?store, fun hi => ?load⟩
  case bcd =>
    have hlen := bcdDigits_length (s.reg x)
    obtain ⟨t, hexec, hfault, hbytes⟩ :=
      storeAtI_beyond (bs := bcdDigits (s.reg x)) hwf (List.cons_ne_nil _ _) (by omega)
    refine ⟨t, hexec, hfault, fun a => (hbytes a).imp_right ?_⟩
    rintro ⟨hlow, hrange, k, hk, rfl, hread⟩
    obtain rfl | rfl : k = 0 ∨ k = 1 := by omega
    · exact ⟨hlow, hrange, .inl ⟨rfl, hread⟩⟩
    · exact ⟨hlow, hrange, .inr ⟨rfl, hread⟩⟩
  case store =>
    have hlen := regsUpTo_length s x
    obtain ⟨t, hexec, hfault, hbytes⟩ :=
      storeAtI_beyond (bs := s.regsUpTo x) hwf (List.ne_nil_of_length_pos (by omega)) (by omega)
    refine ⟨t, hexec, hfault, fun a => (hbytes a).imp_right ?_⟩
    rintro ⟨hlow, hrange, k, hk, ha, hread⟩
    have hx := x.isLt
    have hk' : (BitVec.ofNat 4 k).toNat = k := by rw [BitVec.toNat_ofNat, Nat.mod_eq_of_lt (by omega)]
    refine ⟨hlow, hrange, BitVec.ofNat 4 k, by omega, by rw [hk', ha], ?_⟩
    rw [hread, ← regsUpTo_getD s x (BitVec.ofNat 4 k) (by omega), hk']
  case load =>
    obtain ⟨t, hexec, hfault, hregs⟩ := loadFromI_beyond (n := x.toNat + 1) (s := s) (Nat.succ_ne_zero _) (by omega)
    refine ⟨t, hexec, hfault, fun r => (hregs r).imp_right ?_⟩
    exact fun ⟨hlt, hloaded⟩ => ⟨Nat.le_of_lt_succ hlt, hloaded⟩

end Sys2Proof.Machine
end

section
/-!
SUPPORT. The frame of every instruction that raises no fault (files 41 to 45): each kind of write by the parts it changes, and
each instruction by its kind.
-/
namespace Sys2Proof.Machine

/-- A next state that `r` answers has a fault in FLT, or it is `s` but for the parts in `l`. -/
def KeepsUnlessFaulted (l : List Part) (s : State) (r : Result) : Prop :=
  ∀ t, r = .next t → t.flt.cause = .noFault → KeepsAllBut l s t

section
variable {l : List Part} {s : State}

theorem keepsUnlessFaulted_of_next {r : Result} {t : State} (hr : r = .next t) (h : KeepsAllBut l s t) :
    KeepsUnlessFaulted l s r := by
  subst hr
  rintro _ ⟨⟩ -
  exact h

theorem keepsUnlessFaulted_of_raise {r : Result} {c : Cause} {n : Nat} {t : State}
    (hr : r = .next (raiseInStep c n t)) (hc : c ≠ .noFault) : KeepsUnlessFaulted l s r := by
  subst hr
  rintro _ ⟨⟩ hlive
  rw [raiseInStep_flt] at hlive
  exact absurd hlive hc

theorem keepsUnlessFaulted_of_fault {r : Result} {f : Fault} (hr : r = .fault f) : KeepsUnlessFaulted l s r := by
  subst hr
  exact nofun

end

section
variable (s : State)

theorem skipIf_keepsAllBut (d : Bool) : KeepsAllBut [.pc] s (s.skipIf d) := by
  rw [skipIf_eq]
  exact (setPc_writesPc s _).2

theorem execRet_keeps : KeepsUnlessFaulted [.pc, .sp] s (execRet s) := by
  rcases sp_cases s with hempty | ⟨k, hk⟩ | hbeyond
  · exact keepsUnlessFaulted_of_raise (execRet_underflow hempty) (by decide)
  · obtain ⟨t, hret, -, -, hframe⟩ := returnPopsIntoPc s k hk
    exact keepsUnlessFaulted_of_next hret hframe
  · exact keepsUnlessFaulted_of_fault (execRet_noEntry hbeyond)

theorem execCall_keeps (nnn : Addr12) : KeepsUnlessFaulted [.pc, .sp, .stack] s (execCall nnn s) := by
  by_cases hroom : s.sp.toNat < 16
  · obtain ⟨t, hcall, -, -, -, hframe⟩ := callPushesAndJumps nnn s hroom
    exact keepsUnlessFaulted_of_next hcall hframe
  · exact keepsUnlessFaulted_of_raise (execCall_overflow nnn hroom) (by decide)

theorem storeAtI_keeps (bs : List Byte) : KeepsUnlessFaulted [.mem] s (storeAtI bs s) := by
  rcases storeAtI_cases bs s with ⟨m, -, hstored⟩ | ⟨a, -, hfault⟩
  · exact keepsUnlessFaulted_of_next hstored (withMem_keepsAllBut s m)
  · exact keepsUnlessFaulted_of_raise hfault (by decide)

theorem loadFromI_keeps (n : Nat) : KeepsUnlessFaulted [.v] s (loadFromI n s) := by
  rcases loadFromI_cases n s with ⟨bs, hloaded⟩ | ⟨a, hfault⟩
  · exact keepsUnlessFaulted_of_next hloaded (withRegs_keepsAllBut s _)
  · exact keepsUnlessFaulted_of_raise hfault (by decide)

theorem execDrw_keeps (x y n : Nibble) : KeepsUnlessFaulted [.v, .fb] s (execDrw x y n s) := by
  by_cases hfits : n.toNat = 0 ∨ s.i.toNat + n.toNat ≤ 4096
  · exact keepsUnlessFaulted_of_next (exec_drw_fits x y n s hfits) (afterDraw_keepsAllBut _ s)
  · exact keepsUnlessFaulted_of_raise (exec_drw_faults x y n s (by omega) (by omega)) (by decide)

theorem skipOnKey_keeps (x : Nibble) (down : Bool) : KeepsUnlessFaulted [.pc] s (skipOnKey x down s) := by
  by_cases hout : 15 < (s.reg x).toNat
  · exact keepsUnlessFaulted_of_raise (skipOnKey_outOfRange hout down) (by decide)
  · have hskip := skipOnKey_inRange (k := ⟨(s.reg x).toNat, by omega⟩) rfl down
    exact keepsUnlessFaulted_of_next hskip (skipIf_keepsAllBut s _)

theorem execLdVxK_keeps (x : Nibble) : KeepsUnlessFaulted [.v, .pc] s (execLdVxK x s) := by
  cases hsel : keySel s.keys with
  | some k =>
    exact keepsUnlessFaulted_of_next (exec_ldVxK_some hsel x)
      (keepsAllBut_setReg (keepsAllBut_refl s _) (by decide) x _)
  | none =>
    exact keepsUnlessFaulted_of_next (exec_ldVxK_none hsel x)
      (keepsAllBut_setPc (keepsAllBut_refl s _) (by decide) _)

theorem execRndWith_keeps (r : Byte) (x : Nibble) (nn : Byte) :
    KeepsUnlessFaulted [.v, .draws] s (execRndWith r x nn s) := by
  obtain ⟨t, hrnd, -, hframe⟩ := execRndWith_writes r x nn s
  exact keepsUnlessFaulted_of_next hrnd hframe

/-- An instruction with one outcome is one kind of write; the others have their lemma above. -/
theorem exec_keeps (i : Instr) : KeepsUnlessFaulted (changedParts i) s (exec i s) :=
  match i with
  | .nop => keepsUnlessFaulted_of_next rfl (keepsAllBut_refl s _)
  | .cls => keepsUnlessFaulted_of_next rfl (keepsAllBut_withFb (keepsAllBut_refl s _) List.mem_cons_self .clear)
  | .ret => execRet_keeps s
  | .jp _ | .jpV0 _ => keepsUnlessFaulted_of_next rfl (setPc_writesPc s _).2
  | .call nnn => execCall_keeps s nnn
  | .seImm _ _ | .sneImm _ _ | .seReg _ _ _ | .sneReg _ _ _ => keepsUnlessFaulted_of_next rfl (skipIf_keepsAllBut s _)
  | .ldImm x _ | .addImm x _ | .ldReg x _ | .orReg x _ | .andReg x _ | .xorReg x _ | .ldVxDt x =>
    keepsUnlessFaulted_of_next rfl (setReg_writesReg s x rfl).2
  | .addReg x _ | .subReg x _ | .shr x _ | .subnReg x _ | .shl x _ =>
    keepsUnlessFaulted_of_next rfl (setRegFlag_writesRegAndFlag s x rfl rfl).2
  | .ldI _ | .addI _ | .ldF _ => keepsUnlessFaulted_of_next rfl (withIndex_keepsAllBut s _)
  | .rnd x nn => execRndWith_keeps s _ x nn
  | .drw x y n => execDrw_keeps s x y n
  | .skp x => skipOnKey_keeps s x true
  | .sknp x => skipOnKey_keeps s x false
  | .ldVxK x => execLdVxK_keeps s x
  | .ldDtVx _ => keepsUnlessFaulted_of_next rfl (keepsAllBut_withDt (keepsAllBut_refl s _) List.mem_cons_self _)
  | .ldStVx _ => keepsUnlessFaulted_of_next rfl (keepsAllBut_withSt (keepsAllBut_refl s _) List.mem_cons_self _)
  | .ldB _ | .ldMemVx _ => storeAtI_keeps s _
  | .ldVxMem _ => loadFromI_keeps s _

end

/-- Settles O55: every instruction keeps its frame or raises a fault (`exec_keeps`). -/
theorem instructionsChangeOnlyTheirParts : Obligations.InstructionsChangeOnlyTheirParts := by
  unfold Obligations.InstructionsChangeOnlyTheirParts
  exact fun i s t _ hexec hlive => exec_keeps s i t hexec hlive

end Sys2Proof.Machine
end

section
/-!
SUPPORT. The fixed words of 95_test_vectors.md, each the encoding of the instruction it stands for (30_encoding.md R74) or on
the list of R75; and the values of reset (10_state.md R36).
-/
namespace Sys2Proof.Machine

/-- Settles O5: a word decodes to the instruction whose encoding it is, and 0x812D is on R75's list (O4). -/
theorem wordsOfTheSpecDecode : Obligations.WordsOfTheSpecDecode := by
  unfold Obligations.WordsOfTheSpecDecode
  have hlisted : UnimplementedWord strictD4 0x812D := .inr (.inl (by decide))
  have hrejected : decodeWord 0x812D = .error (.unimplemented 0x812D) :=
    (unimplementedWordsAreExactlyTheListed strictD4 0x812D).mpr hlisted
  simp only [decodeWord_eq_ok_iff, hrejected, and_true]
  decide

/-- The font ends at address 79 (R33). -/
theorem initByte_above_font {a : Nat} (h : 80 ≤ a) : initByte a = 0 :=
  List.getD_eq_default fontTable 0 h

/-- Settles O10: the vectors of reset are constant, and its memory lists no cell. -/
theorem resetValues : Obligations.ResetValues := by
  unfold Obligations.ResetValues
  exact ⟨fun r => Vector.get_replicate 16 0 r.toFin, rfl, rfl, rfl, Vector.get_replicate 16 0, rfl, rfl,
    Vector.get_replicate 16 false, pixel_clear, fun _ => initByte_above_font, rfl⟩

end Sys2Proof.Machine
end
